-- ==== Sys2Proof/Word.lean ====
section
/-! DEFINITION. The word types of the BVU: a host register word and a register number. -/

namespace Sys2Proof

/-- A host register, and a command word: 32 bits, bit 0 the least significant (R16, R90). -/
abbrev Word := BitVec 32

/-- A vector register number: the value of a 4-bit field of the command word (R94). -/
abbrev Reg := Fin 16

end Sys2Proof
end

