-- ==== Sys2Proof/Config.lean ====
section
/-! DEFINITION. The implementation parameters of 00_scope.md section 4 (R5 to R8). They are plain data:
State carries one Config, which no step changes, so that a statement over every state is a statement
over every configuration. -/

namespace Sys2Proof

/-- The parameters of one BVU. -/
structure Config where
  /-- `W`, the storage word width in bits (R5). -/
  w : Nat
  /-- `CAPW`, the number of storage words each vector register holds (R6). -/
  capw : Nat
  /-- `NV`, the number of vector registers (R7). -/
  nv : Nat
  /-- `BVU_BASE`, the host address of the register window (R8). -/
  base : Nat
  deriving DecidableEq, Repr

/-- `CAPBITS = CAPW * W` (R6). -/
def Config.capBits (c : Config) : Nat := c.capw * c.w

/-- The legal parameter values (R5, R6, R7; the alignment of BVU_BASE is the OPEN table of
92_eei_decisions.md). -/
abbrev Config.Legal (c : Config) : Prop :=
  (c.w = 8 ∨ c.w = 16 ∨ c.w = 32) ∧ (1 ≤ c.capBits ∧ c.capBits ≤ 32768) ∧
    (1 ≤ c.nv ∧ c.nv ≤ 16) ∧ c.base % 256 = 0

/-- The defaults of R5, R6 and R7. BVU_BASE is OPEN in the spec; its value 0 here is a
DESIGN CHOICE (log 1), unsafe if a statement rested on it. -/
def Config.standard : Config where
  w := 16
  capw := 64
  nv := 16
  base := 0

end Sys2Proof
end

