-- ==== Sys2Proof/Syntax.lean ====
section
/-! DEFINITION. The command set BVU-CMD version 1: one constructor per row of opcode_table.json (R96),
its operands in the assembler's order (R102). -/

namespace Sys2Proof

/-- A command. `vd`, `va`, `vb`, `vc` are the register fields its format uses, `imm` the 10-bit
immediate of SETB and FILL (R91 to R94). The scalar operand ARG and the data word are no part of the
command word (R90). -/
inductive Instr where
  /-- NOP, R121 -/
  | nop
  /-- ALLOC vd, R122 -/
  | alloc (vd : Reg)
  /-- MOV vd, va, R123 -/
  | mov (vd va : Reg)
  /-- GETLEN va, R124 -/
  | getlen (va : Reg)
  /-- GETB va, R125 -/
  | getb (va : Reg)
  /-- SETB vd, #imm, R126 -/
  | setb (vd : Reg) (imm : BitVec 10)
  /-- FILL vd, #imm, R127 -/
  | fill (vd : Reg) (imm : BitVec 10)
  /-- PADL vd, R128 -/
  | padl (vd : Reg)
  /-- RDW va, R130 -/
  | rdw (va : Reg)
  /-- WRW vd, R131 -/
  | wrw (vd : Reg)
  /-- RDB va, R132 -/
  | rdb (va : Reg)
  /-- AND vd, va, vb, R161 -/
  | and (vd va vb : Reg)
  /-- OR vd, va, vb, R162 -/
  | or (vd va vb : Reg)
  /-- XOR vd, va, vb, R163 -/
  | xor (vd va vb : Reg)
  /-- NOT vd, va, R166 -/
  | not (vd va : Reg)
  /-- CMP va, vb, R167 -/
  | cmp (va vb : Reg)
  /-- ROTL vd, R181 -/
  | rotl (vd : Reg)
  /-- ROTR vd, R182 -/
  | rotr (vd : Reg)
  /-- SHL vd, R183 -/
  | shl (vd : Reg)
  /-- SHR vd, R184 -/
  | shr (vd : Reg)
  /-- GFMUL vd, va, vb, R202 -/
  | gfmul (vd va vb : Reg)
  /-- GFDIV vd, vc, va, vb (quotient, remainder, dividend, modulus), R203 -/
  | gfdiv (vd vc va vb : Reg)
  /-- GFMULMOD vd, va, vb, vc (result, a, b, modulus), R205 -/
  | gfmulmod (vd va vb vc : Reg)
  /-- GFINV vd, va, vb (inverse, a, modulus), R207 -/
  | gfinv (vd va vb : Reg)
  deriving DecidableEq, Repr

end Sys2Proof
end

