-- ==== Sys2Proof/WellFormed.lean ====
section
/-! DEFINITION. When a command is well formed on a configuration: every register field its format uses
names a register that exists (R98). Every other field value is legal as an encoding; an immediate
above 1 is an error of the command itself (R93, R126, R127). -/

namespace Sys2Proof

/-- The register fields a command's format uses (R92, R96). -/
def Instr.regs : Instr → List Reg
  | .nop => []
  | .alloc vd => [vd]
  | .mov vd va => [vd, va]
  | .getlen va => [va]
  | .getb va => [va]
  | .setb vd _ => [vd]
  | .fill vd _ => [vd]
  | .padl vd => [vd]
  | .rdw va => [va]
  | .wrw vd => [vd]
  | .rdb va => [va]
  | .and vd va vb => [vd, va, vb]
  | .or vd va vb => [vd, va, vb]
  | .xor vd va vb => [vd, va, vb]
  | .not vd va => [vd, va]
  | .cmp va vb => [va, vb]
  | .rotl vd => [vd]
  | .rotr vd => [vd]
  | .shl vd => [vd]
  | .shr vd => [vd]
  | .gfmul vd va vb => [vd, va, vb]
  | .gfdiv vd vc va vb => [vd, vc, va, vb]
  | .gfmulmod vd va vb vc => [vd, va, vb, vc]
  | .gfinv vd va vb => [vd, va, vb]

/-- Every used register field is below NV (R98). -/
def Instr.wellFormed (c : Config) (i : Instr) : Bool :=
  i.regs.all fun r => decide (r.val < c.nv)

end Sys2Proof
end

