-- ==== Sys2Proof/Decode.lean ====
section
/-! DEFINITION. The command word (30_encoding.md): its fields, the decoder, the encoder, and the opcode
table of R92 and R96 as rows of a mask and a pattern. -/

namespace Sys2Proof

/-- The six fields of a command word (R91). -/
structure Fields where
  op : BitVec 6
  vd : BitVec 4
  va : BitVec 4
  vb : BitVec 4
  vc : BitVec 4
  imm : BitVec 10
  deriving DecidableEq, Repr

/-- Why a command word is illegal. Each completes with ECODE = ILLEGAL (R97, R98, R248). -/
inductive DecodeError where
  /-- OP is not in the table of R96 (R97). -/
  | undefinedOpcode
  /-- A field the format requires to be zero is nonzero (R97). -/
  | reservedFieldNonzero
  /-- A used register field holds a number at or above NV (R98). -/
  | registerNumber
  deriving DecidableEq, Repr

/-- The fields of a word, at the bit positions of R91. -/
def fieldsOf (x : Word) : Fields where
  op := x.extractLsb' 26 6
  vd := x.extractLsb' 22 4
  va := x.extractLsb' 18 4
  vb := x.extractLsb' 14 4
  vc := x.extractLsb' 10 4
  imm := x.extractLsb' 0 10

/-- `word = OP<<26 | VD<<22 | VA<<18 | VB<<14 | VC<<10 | IMM` (R91). -/
def assemble (f : Fields) : Word :=
  f.op ++ f.vd ++ f.va ++ f.vb ++ f.vc ++ f.imm

/-- A 4-bit field read as a register number (R94). -/
def regOf (x : BitVec 4) : Reg := ⟨x.toNat, x.isLt⟩

/-- A register number as a 4-bit field (R94). -/
def regField (r : Reg) : BitVec 4 := BitVec.ofNat 4 r.val

/-- The command a word's OP selects, with the operand fields its format uses (R92, R96); none when
OP is not in the table. -/
def instrOf (f : Fields) : Option Instr :=
  match f.op.toNat with
  | 0x00 => some .nop
  | 0x01 => some (.alloc (regOf f.vd))
  | 0x02 => some (.mov (regOf f.vd) (regOf f.va))
  | 0x03 => some (.getlen (regOf f.va))
  | 0x04 => some (.getb (regOf f.va))
  | 0x05 => some (.setb (regOf f.vd) f.imm)
  | 0x06 => some (.fill (regOf f.vd) f.imm)
  | 0x07 => some (.padl (regOf f.vd))
  | 0x08 => some (.rdw (regOf f.va))
  | 0x09 => some (.wrw (regOf f.vd))
  | 0x0A => some (.rdb (regOf f.va))
  | 0x10 => some (.and (regOf f.vd) (regOf f.va) (regOf f.vb))
  | 0x11 => some (.or (regOf f.vd) (regOf f.va) (regOf f.vb))
  | 0x12 => some (.xor (regOf f.vd) (regOf f.va) (regOf f.vb))
  | 0x13 => some (.not (regOf f.vd) (regOf f.va))
  | 0x14 => some (.cmp (regOf f.va) (regOf f.vb))
  | 0x18 => some (.rotl (regOf f.vd))
  | 0x19 => some (.rotr (regOf f.vd))
  | 0x1A => some (.shl (regOf f.vd))
  | 0x1B => some (.shr (regOf f.vd))
  | 0x20 => some (.gfmul (regOf f.vd) (regOf f.va) (regOf f.vb))
  | 0x21 => some (.gfdiv (regOf f.vd) (regOf f.vc) (regOf f.va) (regOf f.vb))
  | 0x22 => some (.gfmulmod (regOf f.vd) (regOf f.va) (regOf f.vb) (regOf f.vc))
  | 0x23 => some (.gfinv (regOf f.vd) (regOf f.va) (regOf f.vb))
  | _ => none

/-- The fields a command's word has: its OP, its operands, zero in every field its format does not
use (R92, R96). -/
def Instr.fields : Instr → Fields
  | .nop => ⟨0x00, 0, 0, 0, 0, 0⟩
  | .alloc vd => ⟨0x01, regField vd, 0, 0, 0, 0⟩
  | .mov vd va => ⟨0x02, regField vd, regField va, 0, 0, 0⟩
  | .getlen va => ⟨0x03, 0, regField va, 0, 0, 0⟩
  | .getb va => ⟨0x04, 0, regField va, 0, 0, 0⟩
  | .setb vd imm => ⟨0x05, regField vd, 0, 0, 0, imm⟩
  | .fill vd imm => ⟨0x06, regField vd, 0, 0, 0, imm⟩
  | .padl vd => ⟨0x07, regField vd, 0, 0, 0, 0⟩
  | .rdw va => ⟨0x08, 0, regField va, 0, 0, 0⟩
  | .wrw vd => ⟨0x09, regField vd, 0, 0, 0, 0⟩
  | .rdb va => ⟨0x0A, 0, regField va, 0, 0, 0⟩
  | .and vd va vb => ⟨0x10, regField vd, regField va, regField vb, 0, 0⟩
  | .or vd va vb => ⟨0x11, regField vd, regField va, regField vb, 0, 0⟩
  | .xor vd va vb => ⟨0x12, regField vd, regField va, regField vb, 0, 0⟩
  | .not vd va => ⟨0x13, regField vd, regField va, 0, 0, 0⟩
  | .cmp va vb => ⟨0x14, 0, regField va, regField vb, 0, 0⟩
  | .rotl vd => ⟨0x18, regField vd, 0, 0, 0, 0⟩
  | .rotr vd => ⟨0x19, regField vd, 0, 0, 0, 0⟩
  | .shl vd => ⟨0x1A, regField vd, 0, 0, 0, 0⟩
  | .shr vd => ⟨0x1B, regField vd, 0, 0, 0, 0⟩
  | .gfmul vd va vb => ⟨0x20, regField vd, regField va, regField vb, 0, 0⟩
  | .gfdiv vd vc va vb => ⟨0x21, regField vd, regField va, regField vb, regField vc, 0⟩
  | .gfmulmod vd va vb vc => ⟨0x22, regField vd, regField va, regField vb, regField vc, 0⟩
  | .gfinv vd va vb => ⟨0x23, regField vd, regField va, regField vb, 0, 0⟩

/-- Decode a command word (R99, first two lines): the opcode, then the fields required to be zero,
then the register numbers. Total; every rejected word is rejected by name. -/
def decode (c : Config) (x : Word) : Except DecodeError Instr :=
  match instrOf (fieldsOf x) with
  | none => .error .undefinedOpcode
  | some i =>
    if fieldsOf x ≠ i.fields then .error .reservedFieldNonzero
    else if i.wellFormed c then .ok i
    else .error .registerNumber

/-- The word of a command (R91, R96). -/
def encode (i : Instr) : Word := assemble i.fields

/-- The instruction the decoder reads from the low `nbits` bits of `x`, on the default
configuration. A command is one 32-bit word (R90), so bit 0 of the opcode table's numbering is bit 0
of the word. -/
def decodeTableWord (nbits x : Nat) : Option Instr :=
  match decode Config.standard (BitVec.ofNat 32 (x % 2 ^ nbits)) with
  | .ok i => some i
  | .error _ => none

/-! ## The opcode table as the spec prints it -/

/-- A row of R96 with its format's mask (R92): a word selects the row whose
`(word & mask) = match`. The four Booleans say which register fields the format uses. -/
structure OpcodeRow where
  op : Nat
  mask : Word
  usesVD : Bool
  usesVA : Bool
  usesVB : Bool
  usesVC : Bool
  deriving DecidableEq, Repr

/-- The row's `match` is `OP << 26` (R96). -/
def OpcodeRow.pattern (r : OpcodeRow) : Word := BitVec.ofNat 32 r.op <<< 26

/-- The formats of R92: the mask each requires to match and the fields it uses. -/
def rowN (op : Nat) : OpcodeRow := ⟨op, 0xFFFFFFFF, false, false, false, false⟩
def rowD (op : Nat) : OpcodeRow := ⟨op, 0xFC3FFFFF, true, false, false, false⟩
def rowDI (op : Nat) : OpcodeRow := ⟨op, 0xFC3FFC00, true, false, false, false⟩
def rowA (op : Nat) : OpcodeRow := ⟨op, 0xFFC3FFFF, false, true, false, false⟩
def rowDA (op : Nat) : OpcodeRow := ⟨op, 0xFC03FFFF, true, true, false, false⟩
def rowAB (op : Nat) : OpcodeRow := ⟨op, 0xFFC03FFF, false, true, true, false⟩
def rowDAB (op : Nat) : OpcodeRow := ⟨op, 0xFC003FFF, true, true, true, false⟩
def rowDCAB (op : Nat) : OpcodeRow := ⟨op, 0xFC0003FF, true, true, true, true⟩

/-- The 24 rows of R96, in the order printed there. -/
def opcodeTable : List OpcodeRow :=
  [rowN 0x00, rowD 0x01, rowDA 0x02, rowA 0x03, rowA 0x04, rowDI 0x05, rowDI 0x06, rowD 0x07,
   rowA 0x08, rowD 0x09, rowA 0x0A] ++
  [rowDAB 0x10, rowDAB 0x11, rowDAB 0x12, rowDA 0x13, rowAB 0x14] ++
  [rowD 0x18, rowD 0x19, rowD 0x1A, rowD 0x1B] ++
  [rowDAB 0x20, rowDCAB 0x21, rowDCAB 0x22, rowDAB 0x23]

/-- The word selects the row (R96), and every register field the row uses is below NV (R98). -/
def OpcodeRow.selects (r : OpcodeRow) (x : Word) : Bool := x &&& r.mask == r.pattern

def OpcodeRow.registersExist (r : OpcodeRow) (c : Config) (x : Word) : Bool :=
  (!r.usesVD || decide ((x.extractLsb' 22 4).toNat < c.nv)) &&
  (!r.usesVA || decide ((x.extractLsb' 18 4).toNat < c.nv)) &&
  (!r.usesVB || decide ((x.extractLsb' 14 4).toNat < c.nv)) &&
  (!r.usesVC || decide ((x.extractLsb' 10 4).toNat < c.nv))

end Sys2Proof
end

