-- ==== Sys2Proof/Machine/State.lean ====
section
/-! DEFINITION. The state of the BVU (10_state.md R30), the two agents' events, and the state right
after reset (10_state.md section 6, R280). -/

namespace Sys2Proof.Machine

/-- A bit vector: the pair (len, val) of R9. -/
structure Vec where
  len : Nat
  val : Nat
  deriving DecidableEq, Repr

/-- The empty vector (0, 0) (R9). -/
def Vec.empty : Vec := ⟨0, 0⟩

/-- The vector storage (R32, R60 b), the block's only memory. A 4-bit field can name 16 registers
(R94); those at or above NV do not exist, no command reaches them (R98), and they stay empty (log 8). -/
abbrev Memory := Vector Vec 16

/-- A bit vector in canonical form: `len <= CAPBITS` and `val < 2^len` (R9). -/
abbrev Vec.wf (c : Config) (v : Vec) : Prop := v.len ≤ c.capBits ∧ v.val < 2 ^ v.len

/-- The vector storage in canonical form, so that equal storage is equal data. -/
abbrev Memory.wf (c : Config) (m : Memory) : Prop :=
  ∀ r : Fin 16, Vec.wf c m[r] ∧ (c.nv ≤ r.val → m[r] = Vec.empty)

/-- The values of STATUS.ECODE (R242). Code 7 is reserved and never produced (log 9). -/
inductive ErrorCode where
  | ok
  | range
  | invalidValue
  | invalidArgument
  | invalidOperation
  | capacity
  | illegal
  deriving DecidableEq, Repr

/-- The kinds of host access R65 tells apart; only a single 32-bit access is accepted. -/
inductive AccessWidth where
  | bits8
  | bits16
  | bits32
  /-- wider than 32 bits -/
  | wider
  /-- a burst of several beats -/
  | burst
  deriving DecidableEq, Repr

/-- A read, or a write of a value on the 32-bit data port (R50). -/
inductive AccessKind where
  | read
  | write (value : Word)
  deriving DecidableEq, Repr

/-- One host access, at an address of the host's space (R60 a, R65). -/
structure Access where
  kind : AccessKind
  width : AccessWidth
  addr : Nat
  deriving DecidableEq, Repr

/-- What the host port answers (R50, R65). -/
inductive BusResponse where
  | data (value : Word)
  | ack
  | error
  deriving DecidableEq, Repr

/-- Why a host access is refused. -/
inductive BusErrorCause where
  /-- `rst` is asserted (R281). -/
  | inReset
  /-- not a single 32-bit access (R65). -/
  | width
  /-- the offset is not a multiple of 4 (R65). -/
  | misaligned
  /-- the address is outside the 256-byte window (R65). -/
  | outsideWindow
  deriving DecidableEq, Repr

/-- What an agent does next (R30). -/
inductive Event where
  /-- the host performs an access -/
  | host (a : Access)
  /-- the engine has its turn: it completes the pending command, if there is one (R240) -/
  | engine
  /-- the reset input is asserted (R280) -/
  | assertReset
  /-- the reset input is released (R281) -/
  | releaseReset
  deriving DecidableEq, Repr

/-- Why a step stops. -/
inductive Fault where
  /-- Raised by a host step whose access is refused with a bus error: "A model treats a refused access
  as a fault of the host step" (R65; R250, R281). Safe: the block's state is unchanged (see
  `busAccess`), and the model stops where the host may go on. -/
  | busError (cause : BusErrorCause)
  deriving DecidableEq, Repr

/-- Why the model gives no meaning. -/
inductive Refusal where
  /-- Raised by an arm of `exec` whose instruction has no meaning yet; no arm does. Safe. -/
  | notModelled (mnemonic : String)
  deriving DecidableEq, Repr

/-- The state: the tuple of R30, the configuration, the level of `rst`, and the model's own two
fields `inputs` (log 3) and `response` (log 7). -/
structure State where
  /-- the parameters; no step changes them (R5 to R8) -/
  cfg : Config
  /-- V0 to V(NV-1) (R32) -/
  vectors : Memory
  /-- CTRL.IE (R35) -/
  ie : Bool
  /-- STATUS.BUSY (R42) -/
  busy : Bool
  /-- STATUS.DONE (R43) -/
  done : Bool
  /-- STATUS.EQ (R44) -/
  eq : Bool
  /-- STATUS.LT (R44) -/
  lt : Bool
  /-- STATUS.GT (R44) -/
  gt : Bool
  /-- STATUS.NOINV (R45) -/
  noinv : Bool
  /-- STATUS.ERR (R46) -/
  err : Bool
  /-- STATUS.OVR (R46, R47) -/
  ovr : Bool
  /-- STATUS.ECODE (R46, R242) -/
  ecode : ErrorCode
  /-- ARG (R37) -/
  arg : Word
  /-- DATA (R38) -/
  data : Word
  /-- RESULT (R39) -/
  result : Word
  /-- LCMD, the latched command word (R47) -/
  lcmd : Word
  /-- LARG, the latched scalar operand (R47) -/
  larg : Word
  /-- LDATA, the latched data word (R47) -/
  ldata : Word
  /-- the level of the reset input (R50, R281) -/
  rst : Bool
  /-- the events still to come, the next one first (log 3) -/
  inputs : List Event
  /-- the port's answer to the last access accepted since reset, none before one (log 7) -/
  response : Option BusResponse
  deriving DecidableEq, Repr

/-- Every piece of state at its reset value (R280), on a given configuration. The latches, which R280
leaves unspecified and never observable, are 0: DESIGN CHOICE (log 2). The port has answered nothing yet:
DESIGN CHOICE (log 7). -/
def State.resetOf (c : Config) : State where
  cfg := c
  vectors := Vector.replicate 16 Vec.empty
  ie := false
  busy := false
  done := false
  eq := false
  lt := false
  gt := false
  noinv := false
  err := false
  ovr := false
  ecode := .ok
  arg := 0
  data := 0
  result := 0
  lcmd := 0
  larg := 0
  ldata := 0
  rst := false
  inputs := []
  response := none

/-- The machine right after reset, on the default configuration: idle (R282). -/
def State.reset : State := State.resetOf Config.standard

end Sys2Proof.Machine
end

