-- ==== Sys2Proof/Machine/Ops.lean ====
section
/-! DEFINITION. The shared operations: reading and writing the vector storage, how a command ends
(complete, raise), how one is accepted and fetched, and the reset event. -/

namespace Sys2Proof.Machine

/-- What a step answers. -/
abbrev StepOutcome := Host.Outcome State Fault Refusal

/-! ## The vector storage -/

/-- `V[r]` (R17). -/
def Memory.read (m : Memory) (r : Reg) : Vec := m[r]

/-- `V[r] <- v`: the whole pair is replaced (R17, R32, R129). -/
def Memory.write (m : Memory) (r : Reg) (v : Vec) : Memory := m.set r v

/-- `V[r]` in a state. -/
def State.readV (s : State) (r : Reg) : Vec := Memory.read s.vectors r

/-- The state with `V[r]` replaced. -/
def State.writeV (s : State) (r : Reg) (v : Vec) : State :=
  { s with vectors := Memory.write s.vectors r v }

/-- `RESULT <- zext_32(x)` (R39); `x` is below 2^32 wherever a command writes it on a legal
configuration. -/
def State.writeResult (s : State) (x : Nat) : State :=
  { s with result := BitVec.ofNat 32 x }

/-! ## How a command ends (R240) -/

/-- A command has completed: ECODE = OK, BUSY = 0, DONE = 1 (R240, R43, R46). -/
def State.completed (s : State) : State :=
  { s with ecode := .ok, busy := false, done := true }

/-- A command has raised `e`: ECODE = e, ERR = 1, BUSY = 0, DONE = 1 (R240, R46). -/
def State.raised (s : State) (e : ErrorCode) : State :=
  { s with ecode := e, err := true, busy := false, done := true }

/-- `complete`: the writes already made are committed (R240). -/
def complete (s : State) : StepOutcome := .next s.completed

/-- `raise e`, the BVU's whole exception entry: nothing is committed (R240, R241). A meaning applies it
to the state before any of its writes. Nothing plays the part of a return (R253): the host clears
DONE and ERR by `clearStatus`. -/
def raise (e : ErrorCode) (s : State) : StepOutcome := .next (s.raised e)

/-! ## Acceptance (R47) -/

/-- A command is accepted: the word, ARG and DATA are latched, BUSY = 1, DONE = 0 (R43, R47). -/
def acceptCommand (x : Word) (s : State) : State :=
  { s with lcmd := x, larg := s.arg, ldata := s.data, busy := true, done := false }

/-- A host write of `x` to CMD (R47): accepted when idle, else discarded with OVR = 1. -/
def offerCommand (x : Word) (s : State) : State :=
  if s.busy then { s with ovr := true } else acceptCommand x s

/-- The engine's fetch: it decodes the latched word (R72, R99). -/
def fetchCommand (s : State) : Except DecodeError Instr := decode s.cfg s.lcmd

/-! ## The reset event (R280, R281) -/

/-- `rst` is asserted: everything goes to its reset value; a pending command is discarded. What the
host still has to do (`inputs`) is the host's, not the block's, and is kept (log 5). The port's last answer
(`response`), which the spec gives no storage and so no value after reset, goes to `none`: DESIGN CHOICE
(log 7). The latches go to 0: DESIGN CHOICE (log 2). -/
def assertReset (s : State) : State :=
  { State.resetOf s.cfg with rst := true, inputs := s.inputs }

/-- `rst` is released: accesses are accepted again. -/
def releaseReset (s : State) : State := { s with rst := false }

end Sys2Proof.Machine
end

