-- ==== Sys2Proof/Machine/Flags.lean ====
section
/-! DEFINITION. STATUS: the comparison flags (R164, R165), the word the host reads, its write-one-to-clear
bits (R36), the other constant and control words, and the interrupt output (R252). -/

namespace Sys2Proof.Machine

/-- EQ, LT and GT of two vectors, all three at once (R164, R165, R167). -/
def compareFlags (a b : Vec) (s : State) : State :=
  { s with
    eq := decide (a.len = b.len ∧ a.val = b.val)
    lt := decide (a.val < b.val)
    gt := decide (b.val < a.val) }

/-- The number of an error code (R242). -/
def ErrorCode.code : ErrorCode → BitVec 3
  | .ok => 0
  | .range => 1
  | .invalidValue => 2
  | .invalidArgument => 3
  | .invalidOperation => 4
  | .capacity => 5
  | .illegal => 6

/-- STATUS as the host reads it: bit 0 BUSY, 1 DONE, 2 EQ, 3 LT, 4 GT, 5 NOINV, 6 ERR, 7 OVR, [10:8]
ECODE, [31:11] zero (R36). -/
def statusWord (s : State) : Word :=
  0#21 ++ s.ecode.code ++ BitVec.ofBool s.ovr ++ BitVec.ofBool s.err ++ BitVec.ofBool s.noinv ++
    BitVec.ofBool s.gt ++ BitVec.ofBool s.lt ++ BitVec.ofBool s.eq ++ BitVec.ofBool s.done ++
    BitVec.ofBool s.busy

/-- A host write of `x` to STATUS: writing 1 clears DONE (bit 1), ERR (bit 6) and OVR (bit 7), and
nothing else changes (R36, R43, R46). -/
def clearStatus (x : Word) (s : State) : State :=
  { s with
    done := s.done && !x.getLsbD 1
    err := s.err && !x.getLsbD 6
    ovr := s.ovr && !x.getLsbD 7 }

/-- ID (R33). -/
def idWord : Word := 0x42560001

/-- PARAM: CAPBITS in [15:0], W in [21:16], NV in [28:24] (R34). -/
def paramWord (c : Config) : Word :=
  0#3 ++ BitVec.ofNat 5 c.nv ++ 0#2 ++ BitVec.ofNat 6 c.w ++ BitVec.ofNat 16 c.capBits

/-- CTRL: IE in bit 0 (R35). -/
def ctrlWord (s : State) : Word := 0#31 ++ BitVec.ofBool s.ie

/-- The interrupt output: `irq = CTRL.IE AND STATUS.DONE` (R252). -/
def irq (s : State) : Bool := s.ie && s.done

end Sys2Proof.Machine
end

