-- ==== Sys2Proof/Machine/Bus.lean ====
section
/-! DEFINITION. The host's register window: which accesses are accepted (R65, R281), what a read returns
and what a write does (R64, R66). -/

namespace Sys2Proof.Machine

/-- Why an access is refused, none when it is accepted: 32 bits wide, at an offset that is a multiple
of 4, inside the 256-byte window at BVU_BASE, while `rst` is not asserted (R65, R281). -/
def accessProblem (a : Access) (s : State) : Option BusErrorCause :=
  if s.rst then some .inReset
  else if a.width ≠ .bits32 then some .width
  else if a.addr < s.cfg.base ∨ s.cfg.base + 256 ≤ a.addr then some .outsideWindow
  else if (a.addr - s.cfg.base) % 4 ≠ 0 then some .misaligned
  else none

/-- The value of the register at an offset (R64). CMD and the reserved offsets read 0 (R40, R41). -/
def readRegister (off : Nat) (s : State) : Word :=
  match off with
  | 0x00 => idWord
  | 0x04 => paramWord s.cfg
  | 0x08 => ctrlWord s
  | 0x0C => statusWord s
  | 0x14 => s.arg
  | 0x18 => s.data
  | 0x1C => s.result
  | _ => 0

/-- The effect of a write to the register at an offset (R64, R66). Writes to ID, PARAM, RESULT and the
reserved offsets are ignored. -/
def writeRegister (off : Nat) (x : Word) (s : State) : State :=
  match off with
  | 0x08 => { s with ie := x.getLsbD 0 }
  | 0x0C => clearStatus x s
  | 0x10 => offerCommand x s
  | 0x14 => { s with arg := x }
  | 0x18 => { s with data := x }
  | _ => s

/-- The block's side of one host access: its new state and the port's answer. A refused access is
answered with an error and leaves all state unchanged (R65); a read changes nothing (R66). -/
def busAccess (a : Access) (s : State) : State × BusResponse :=
  match accessProblem a s with
  | some _ => (s, .error)
  | none =>
    match a.kind with
    | .read => (s, .data (readRegister (a.addr - s.cfg.base) s))
    | .write x => (writeRegister (a.addr - s.cfg.base) x s, .ack)

/-- A host step. A refused access is a fault of the host step (R65, log 4); otherwise the port's answer
is recorded in `response` (log 7). -/
def hostStep (a : Access) (s : State) : StepOutcome :=
  match accessProblem a s with
  | some cause => .fault (.busError cause)
  | none => .next { (busAccess a s).1 with response := some (busAccess a s).2 }

end Sys2Proof.Machine
end

