-- ==== Sys2Proof/Machine/Operands.lean ====
section
/-! DEFINITION. How a command reads its operands: the latched scalar (R95), signed indices (R12), and
the three views of a bit vector: single bits (R10), storage words (R11, R61), bytes (R132). -/

namespace Sys2Proof.Machine

/-! ## The latched scalar operand (R16, R95) -/

/-- `u32(LARG)`. -/
def argU (s : State) : Nat := s.larg.toNat

/-- `s32(LARG)`. -/
def argS (s : State) : Int := s.larg.toInt

/-- `mask(n) = 2^n - 1` (R16). -/
def mask (n : Nat) : Nat := 2 ^ n - 1

/-- The position a signed index names in a vector of length `len`, none when it is out of range
(R12). -/
def resolveIndex (len : Nat) (i : Int) : Option Nat :=
  if i < -(len : Int) ∨ (len : Int) ≤ i then none
  else some (if 0 ≤ i then i.toNat else ((len : Int) + i).toNat)

/-! ## Single bits -/

/-- `bit(v, p) = (val(v) >> (len(v) - 1 - p)) & 1`, for `p < len(v)` (R10). -/
def Vec.bit (v : Vec) (p : Nat) : Bool := v.val.testBit (v.len - 1 - p)

/-- `(x & ~(1 << k)) | (b << k)` on unbounded naturals (R126, R131). -/
def putBit (x k : Nat) (b : Bool) : Nat :=
  (x ^^^ (x &&& (1 <<< k))) ||| (b.toNat <<< k)

/-- The vector with position `p` holding `b`, for `p < len(v)` (R126). -/
def Vec.setBit (v : Vec) (p : Nat) (b : Bool) : Vec :=
  ⟨v.len, putBit v.val (v.len - 1 - p) b⟩

/-! ## Storage words -/

/-- `nwords(v) = ceil(len(v) / W)` (R11). -/
def Vec.nwords (w : Nat) (v : Vec) : Nat := (v.len + w - 1) / w

/-- The low `n` bits of storage word `k`: bit `j` is position `k*W + j`, 0 beyond the length
(R11, invariant I1). -/
def Vec.wordBits (w : Nat) (v : Vec) (k : Nat) : Nat → Nat
  | 0 => 0
  | j + 1 =>
    Vec.wordBits w v k j |||
      ((if k * w + j < v.len then (v.bit (k * w + j)).toNat else 0) <<< j)

/-- `WordRead`: storage word `k` (R61). -/
def Vec.wordRead (w : Nat) (v : Vec) (k : Nat) : Nat := Vec.wordBits w v k w

/-- The vector after the first `n` bits of the data word `d` are written to storage word `k`; bits
beyond the length are discarded (R61). -/
def Vec.putWordBits (w : Nat) (v : Vec) (k d : Nat) : Nat → Vec
  | 0 => v
  | j + 1 =>
    let u := Vec.putWordBits w v k d j
    if k * w + j < v.len then u.setBit (k * w + j) (d.testBit j) else u

/-- `WordWrite`: storage word `k` becomes the W bits of `d` (R61, R131). -/
def Vec.wordWrite (w : Nat) (v : Vec) (k d : Nat) : Vec := Vec.putWordBits w v k d w

/-! ## Bytes -/

/-- Byte `b` of the byte view: positions `8b` to `8b+7`, position `8b` its bit 7 (R62, R132). -/
def Vec.byteRead (v : Vec) (b : Nat) : Nat := (v.val >>> (v.len - 8 * b - 8)) &&& 0xFF

end Sys2Proof.Machine
end

