-- ==== Sys2Proof/Machine/Bitwise.lean ====
section
/-! DEFINITION. Bitwise algebra and comparison (41_bitwise.md): AND, OR, XOR, NOT, CMP. -/

namespace Sys2Proof.Machine

/-- A binary operation with left zero padding: the values are combined as they are, and the result has
the larger length (R160). -/
def binaryPadded (f : Nat → Nat → Nat) (a b : Vec) : Vec := ⟨max a.len b.len, f a.val b.val⟩

/-- AND vd, va, vb (R161). -/
def execAnd (vd va vb : Reg) (s : State) : StepOutcome :=
  complete (s.writeV vd (binaryPadded (· &&& ·) (s.readV va) (s.readV vb)))

/-- OR vd, va, vb (R162). -/
def execOr (vd va vb : Reg) (s : State) : StepOutcome :=
  complete (s.writeV vd (binaryPadded (· ||| ·) (s.readV va) (s.readV vb)))

/-- XOR vd, va, vb (R163). -/
def execXor (vd va vb : Reg) (s : State) : StepOutcome :=
  complete (s.writeV vd (binaryPadded (· ^^^ ·) (s.readV va) (s.readV vb)))

/-- NOT vd, va (R166): `mask(L) - a`. -/
def execNot (vd va : Reg) (s : State) : StepOutcome :=
  complete (s.writeV vd ⟨(s.readV va).len, mask (s.readV va).len - (s.readV va).val⟩)

/-- CMP va, vb (R167). -/
def execCmp (va vb : Reg) (s : State) : StepOutcome :=
  complete (compareFlags (s.readV va) (s.readV vb) s)

end Sys2Proof.Machine
end

