-- ==== Sys2Proof/Machine/Poly.lean ====
section
/-! DEFINITION. Polynomials over GF(2) as natural numbers (00_scope.md R13 to R15, 43_gf.md R206). The
loops recurse on a bound that the spec's own loop bounds never exceed (log 14). -/

namespace Sys2Proof.Machine

/-- `deg(x) = floor(log2 x)` for nonzero `x` (R13). `deg(0)`, which R13 calls undefined, is 0 here: DESIGN
CHOICE (log 17). It only ever bounds a loop that gives the same for every bound. -/
def deg (x : Nat) : Nat := x.log2

/-- The XOR of `x << k` over the `k` below a bound with bit `k` of `y` set (R14). -/
def clmulBelow (x y : Nat) : Nat → Nat
  | 0 => 0
  | k + 1 => clmulBelow x y k ^^^ (if y.testBit k then x <<< k else 0)

/-- `clmul(x, y)`, the carry-free product: every set bit of `y` lies below `deg(y) + 1` (R14); `y = 0` has none
(log 17). -/
def clmul (x y : Nat) : Nat := clmulBelow x y (deg y + 1)

/-- The loop of `pdivmod`, at most `n` passes (R14). -/
def pdivLoop (m : Nat) : Nat → Nat → Nat → Nat × Nat
  | 0, q, r => (q, r)
  | n + 1, q, r =>
    if r ≠ 0 ∧ deg m ≤ deg r then
      pdivLoop m n (q ||| (1 <<< (deg r - deg m))) (r ^^^ (m <<< (deg r - deg m)))
    else (q, r)

/-- `pdivmod(x, m)`, quotient and remainder, for `m != 0` (R14). Each pass lowers `deg(r)`, so
`deg(x) + 1` passes are enough; for `x = 0` any number is (log 17). -/
def pdivmod (x m : Nat) : Nat × Nat := pdivLoop m (deg x + 1) 0 x

/-- `pdiv(x, m)` (R14). -/
def pdiv (x m : Nat) : Nat := (pdivmod x m).1

/-- `pmod(x, m)` (R14). -/
def pmod (x m : Nat) : Nat := (pdivmod x m).2

/-- The last nonzero value of the remainder sequence from `a`, `b`, at most `n` divisions (R15). -/
def pgcdLoop : Nat → Nat → Nat → Nat
  | 0, a, _ => a
  | n + 1, a, b => if b = 0 then a else pgcdLoop n b (pmod a b)

/-- `pgcd(x, m)` for `m != 0` (R15): at most `deg(m) + 1` divisions. -/
def pgcd (x m : Nat) : Nat := pgcdLoop (deg m + 1) x m

/-- The loop of `euclid` (R206) on (r_prev, r) and (s_prev, s), at most `n` passes. -/
def euclidLoop (m : Nat) : Nat → Nat → Nat → Nat → Nat → Nat × Nat
  | 0, rPrev, _, sPrev, _ => (rPrev, sPrev)
  | n + 1, rPrev, r, sPrev, s =>
    if r ≠ 0 then
      euclidLoop m n r (pmod rPrev r) s (sPrev ^^^ pmod (clmul (pdiv rPrev r) s) m)
    else (rPrev, sPrev)

/-- `euclid(a, m) = (g, c)` for `m != 0`: `deg(r)` falls at every pass, so `deg(m) + 1` passes are
enough (R206). -/
def euclid (a m : Nat) : Nat × Nat := euclidLoop m (deg m + 1) a m 1 0

end Sys2Proof.Machine
end

