-- ==== Sys2Proof/Machine/Gf.lean ====
section
/-! DEFINITION. GF(2) and GF(2^n) arithmetic (43_gf.md): GFMUL, GFDIV, GFMULMOD, GFINV. -/

namespace Sys2Proof.Machine

/-- The modulus and field-size checks, in their order (R201); none when all pass. -/
def modulusError (c : Config) (m : Vec) (n : Nat) : Option ErrorCode :=
  if n + 1 < m.len then some .invalidArgument
  else if m.val = 0 then some .invalidArgument
  else if c.capBits < n then some .capacity
  else none

/-- GFMUL vd, va, vb (R202). -/
def execGfmul (vd va vb : Reg) (s : State) : StepOutcome :=
  if s.cfg.capBits < (s.readV va).len + (s.readV vb).len then raise .capacity s
  else
    complete (s.writeV vd
      ⟨(s.readV va).len + (s.readV vb).len, clmul (s.readV va).val (s.readV vb).val⟩)

/-- GFDIV vd, vc, va, vb (R203): the quotient is written first, then the remainder of exactly n bits
(R204). -/
def execGfdiv (vd vc va vb : Reg) (s : State) : StepOutcome :=
  match modulusError s.cfg (s.readV vb) (argU s) with
  | some e => raise e s
  | none =>
    complete ((s.writeV vd ⟨(s.readV va).len, pdiv (s.readV va).val (s.readV vb).val⟩).writeV vc
      ⟨argU s, pmod (s.readV va).val (s.readV vb).val⟩)

/-- GFMULMOD vd, va, vb, vc (R205): no CAPACITY check on the product (R210). -/
def execGfmulmod (vd va vb vc : Reg) (s : State) : StepOutcome :=
  match modulusError s.cfg (s.readV vc) (argU s) with
  | some e => raise e s
  | none =>
    complete (s.writeV vd
      ⟨argU s, pmod (clmul (s.readV va).val (s.readV vb).val) (s.readV vc).val⟩)

/-- GFINV vd, va, vb (R207): when there is no inverse, NOINV = 1 and V[VD] is not written. -/
def execGfinv (vd va vb : Reg) (s : State) : StepOutcome :=
  match modulusError s.cfg (s.readV vb) (argU s) with
  | some e => raise e s
  | none =>
    if (euclid (s.readV va).val (s.readV vb).val).1 ≠ 1 then complete { s with noinv := true }
    else
      complete (State.writeV { s with noinv := false } vd
        ⟨argU s, pmod (euclid (s.readV va).val (s.readV vb).val).2 (s.readV vb).val⟩)

end Sys2Proof.Machine
end

