-- ==== Sys2Proof/Machine/Shift.lean ====
section
/-! DEFINITION. The shift engine (42_shift.md): ROTL, ROTR, SHL, SHR in place, by a signed count. -/

namespace Sys2Proof.Machine

/-- Circular left by `n`, on a value of length `len > 0` (R181). -/
def rotateLeft (len x n : Nat) : Nat :=
  ((x <<< (n % len)) ||| (x >>> (len - n % len))) &&& mask len

/-- Circular right by `n`, on a value of length `len > 0` (R182). -/
def rotateRight (len x n : Nat) : Nat :=
  ((x >>> (n % len)) ||| (x <<< (len - n % len))) &&& mask len

/-- Non-circular left by `n`: `(x << n) & mask(L)`, which is 0 when `n >= L` (R183, log 15). -/
def shiftLeft (len x n : Nat) : Nat := if len ≤ n then 0 else (x <<< n) &&& mask len

/-- Non-circular right by `n` (R184). -/
def shiftRight (_len x n : Nat) : Nat := x >>> n

/-- A shift command: INVALID_OPERATION on an empty register for every count, `fwd` by a count that is
not negative, `bwd` by the magnitude of a negative one (R180). -/
def shiftCommand (fwd bwd : Nat → Nat → Nat → Nat) (vd : Reg) (s : State) : StepOutcome :=
  if (s.readV vd).len = 0 then raise .invalidOperation s
  else
    complete (s.writeV vd
      ⟨(s.readV vd).len,
        (if argS s < 0 then bwd else fwd) (s.readV vd).len (s.readV vd).val (argS s).natAbs⟩)

/-- ROTL vd (R181). -/
def execRotl (vd : Reg) (s : State) : StepOutcome := shiftCommand rotateLeft rotateRight vd s

/-- ROTR vd (R182). -/
def execRotr (vd : Reg) (s : State) : StepOutcome := shiftCommand rotateRight rotateLeft vd s

/-- SHL vd (R183). -/
def execShl (vd : Reg) (s : State) : StepOutcome := shiftCommand shiftLeft shiftRight vd s

/-- SHR vd (R184). -/
def execShr (vd : Reg) (s : State) : StepOutcome := shiftCommand shiftRight shiftLeft vd s

end Sys2Proof.Machine
end

