-- ==== Sys2Proof/Machine/Storage.lean ====
section
/-! DEFINITION. The packed bit storage commands (40_storage.md): NOP, ALLOC, MOV, GETLEN, GETB, SETB, FILL,
PADL, RDW, WRW, RDB. -/

namespace Sys2Proof.Machine

/-- NOP (R121). -/
def execNop (s : State) : StepOutcome := complete s

/-- ALLOC vd (R122). -/
def execAlloc (vd : Reg) (s : State) : StepOutcome :=
  if s.cfg.capBits < argU s then raise .capacity s
  else complete (s.writeV vd ⟨argU s, 0⟩)

/-- MOV vd, va (R123). -/
def execMov (vd va : Reg) (s : State) : StepOutcome := complete (s.writeV vd (s.readV va))

/-- GETLEN va (R124). -/
def execGetlen (va : Reg) (s : State) : StepOutcome :=
  complete (s.writeResult (s.readV va).len)

/-- GETB va (R125). -/
def execGetb (va : Reg) (s : State) : StepOutcome :=
  match resolveIndex (s.readV va).len (argS s) with
  | none => raise .range s
  | some p => complete (s.writeResult ((s.readV va).bit p).toNat)

/-- SETB vd, #imm (R126): INVALID_VALUE is checked before RANGE. -/
def execSetb (vd : Reg) (imm : BitVec 10) (s : State) : StepOutcome :=
  if 1 < imm.toNat then raise .invalidValue s
  else
    match resolveIndex (s.readV vd).len (argS s) with
    | none => raise .range s
    | some p => complete (s.writeV vd ((s.readV vd).setBit p (imm == 1)))

/-- FILL vd, #imm (R127). -/
def execFill (vd : Reg) (imm : BitVec 10) (s : State) : StepOutcome :=
  if 1 < imm.toNat then raise .invalidValue s
  else
    complete (s.writeV vd ⟨(s.readV vd).len, if imm == 1 then mask (s.readV vd).len else 0⟩)

/-- PADL vd (R128). -/
def execPadl (vd : Reg) (s : State) : StepOutcome :=
  if s.cfg.capBits < (s.readV vd).len + argU s then raise .capacity s
  else complete (s.writeV vd ⟨(s.readV vd).len + argU s, (s.readV vd).val⟩)

/-- RDW va (R130). -/
def execRdw (va : Reg) (s : State) : StepOutcome :=
  if (s.readV va).nwords s.cfg.w ≤ argU s then raise .range s
  else complete (s.writeResult ((s.readV va).wordRead s.cfg.w (argU s)))

/-- WRW vd (R131): the data word is `LDATA[W-1:0]`. -/
def execWrw (vd : Reg) (s : State) : StepOutcome :=
  if (s.readV vd).nwords s.cfg.w ≤ argU s then raise .range s
  else complete (s.writeV vd ((s.readV vd).wordWrite s.cfg.w (argU s) s.ldata.toNat))

/-- RDB va (R132): INVALID_OPERATION is checked before RANGE. -/
def execRdb (va : Reg) (s : State) : StepOutcome :=
  if (s.readV va).len % 8 ≠ 0 then raise .invalidOperation s
  else if (s.readV va).len / 8 ≤ argU s then raise .range s
  else complete (s.writeResult ((s.readV va).byteRead (argU s)))

end Sys2Proof.Machine
end

