-- ==== Sys2Proof/Machine/Dispatch.lean ====
section
/-! DEFINITION. `exec`: the meaning of a decoded command, which runs it to its completion (R99, R240). -/

namespace Sys2Proof.Machine

def exec (i : Instr) (s : State) : Host.Outcome State Fault Refusal :=
  match i with
  | .nop => Sys2Proof.Machine.execNop s
  | .alloc vd => Sys2Proof.Machine.execAlloc vd s
  | .mov vd va => Sys2Proof.Machine.execMov vd va s
  | .getlen va => Sys2Proof.Machine.execGetlen va s
  | .getb va => Sys2Proof.Machine.execGetb va s
  | .setb vd imm => Sys2Proof.Machine.execSetb vd imm s
  | .fill vd imm => Sys2Proof.Machine.execFill vd imm s
  | .padl vd => Sys2Proof.Machine.execPadl vd s
  | .rdw va => Sys2Proof.Machine.execRdw va s
  | .wrw vd => Sys2Proof.Machine.execWrw vd s
  | .rdb va => Sys2Proof.Machine.execRdb va s
  | .and vd va vb => Sys2Proof.Machine.execAnd vd va vb s
  | .or vd va vb => Sys2Proof.Machine.execOr vd va vb s
  | .xor vd va vb => Sys2Proof.Machine.execXor vd va vb s
  | .not vd va => Sys2Proof.Machine.execNot vd va s
  | .cmp va vb => Sys2Proof.Machine.execCmp va vb s
  | .rotl vd => Sys2Proof.Machine.execRotl vd s
  | .rotr vd => Sys2Proof.Machine.execRotr vd s
  | .shl vd => Sys2Proof.Machine.execShl vd s
  | .shr vd => Sys2Proof.Machine.execShr vd s
  | .gfmul vd va vb => Sys2Proof.Machine.execGfmul vd va vb s
  | .gfdiv vd vc va vb => Sys2Proof.Machine.execGfdiv vd vc va vb s
  | .gfmulmod vd va vb vc => Sys2Proof.Machine.execGfmulmod vd va vb vc s
  | .gfinv vd va vb => Sys2Proof.Machine.execGfinv vd va vb s

end Sys2Proof.Machine
end

