-- ==== Sys2Proof/Machine/Engine.lean ====
section
/-! DEFINITION. The engine's turn (R99, R240) and what each event does (R30). -/

namespace Sys2Proof.Machine

/-- The engine executes the latched word to its completion: an illegal word raises ILLEGAL before any
check of the command itself (R97, R98, R99, R251). -/
def runCommand (s : State) : StepOutcome :=
  match fetchCommand s with
  | .ok i => exec i s
  | .error _ => raise .illegal s

/-- The engine's turn: enabled exactly when BUSY = 1 (R240); an idle engine changes nothing (R260). -/
def engineStep (s : State) : StepOutcome := if s.busy then runCommand s else .next s

/-- One event. -/
def perform (e : Event) (s : State) : StepOutcome :=
  match e with
  | .host a => hostStep a s
  | .engine => engineStep s
  | .assertReset => .next (assertReset s)
  | .releaseReset => .next (releaseReset s)

/-- The next event and the state without it. With no event left the engine has its turn, so that a
pending command completes (R240, R290, log 3). -/
def nextEvent (s : State) : Event × State :=
  match s.inputs with
  | [] => (.engine, s)
  | e :: rest => (e, { s with inputs := rest })

end Sys2Proof.Machine
end

