-- ==== Sys2Proof/Machine/Step.lean ====
section
/-! DEFINITION. One step of the machine: one access of the host, one turn of the engine, or one change of
the reset input (R30, R69). -/

namespace Sys2Proof.Machine

/-- One step: the next event is performed on the state without it. -/
def step (s : State) : Host.Outcome State Fault Refusal :=
  perform (nextEvent s).1 (nextEvent s).2

/-- `s` with the command word `x` accepted, as the host's CMD write accepts one (R47), reset released
and the engine's turn next, so that the very next step runs it (log 6). -/
def State.withFetchWord (s : State) (nbits x : Nat) : State :=
  { acceptCommand (BitVec.ofNat 32 (x % 2 ^ nbits)) s with
    rst := false
    inputs := .engine :: s.inputs }

end Sys2Proof.Machine
end

