-- ==== Sys2Proof/Safety.lean ====
section
/-! DEFINITION. What claims are stated in: the invariant of the machine, and what a command that completes
leaves unchanged. -/

namespace Sys2Proof.Machine

/-! ## The invariant -/

/-- Every register at the reset value the spec gives it (10_state.md section 6, R280); the latches, for
which it gives none, are left out. -/
abbrev State.AtResetValues (s : State) : Prop :=
  (∀ r : Fin 16, s.readV r = ⟨0, 0⟩) ∧ s.ie = false ∧ s.busy = false ∧ s.done = false ∧
    s.eq = false ∧ s.lt = false ∧ s.gt = false ∧ s.noinv = false ∧ s.err = false ∧
    s.ovr = false ∧ s.ecode = .ok ∧ s.arg = 0 ∧ s.data = 0 ∧ s.result = 0 ∧ irq s = false

/-- While `rst` is asserted the block is at its reset values (R280, R281). -/
abbrev State.HeldInReset (s : State) : Prop := s.rst = true → s.AtResetValues

/-- At most one of EQ, LT, GT (R44). -/
abbrev State.FlagsExclusive (s : State) : Prop :=
  (s.eq && s.lt) = false ∧ (s.eq && s.gt) = false ∧ (s.lt && s.gt) = false

/-- The invariant: legal parameters, vector storage in canonical form (R9), exclusive comparison flags
(R44), DONE clear while a command is pending (R43, R47), reset values while `rst` is asserted. -/
abbrev State.Inv (s : State) : Prop :=
  s.cfg.Legal ∧ Memory.wf s.cfg s.vectors ∧ s.FlagsExclusive ∧ (s.busy && s.done) = false ∧
    s.HeldInReset

/-! ## How a command ended -/

/-- The completion of a command that raised nothing: ECODE = OK, ERR as before, BUSY = 0, DONE = 1
(R240, R46). -/
def CompletedOk (s t : State) : Prop :=
  t.ecode = .ok ∧ t.err = s.err ∧ t.busy = false ∧ t.done = true

/-- The completion of a command that raised `e`: ECODE, ERR, BUSY and DONE change and nothing else
(R240, R241). -/
def RaisedError (e : ErrorCode) (s t : State) : Prop :=
  t = { s with ecode := e, err := true, busy := false, done := true }

/-! ## Frames -/

/-- Every vector register but the listed ones is unchanged. -/
def SameVectorsExcept (vs : List Reg) (s t : State) : Prop :=
  ∀ r, r ∉ vs → t.readV r = s.readV r

/-- EQ, LT and GT are unchanged. -/
def SameCompareFlags (s t : State) : Prop := t.eq = s.eq ∧ t.lt = s.lt ∧ t.gt = s.gt

/-- Everything no command writes is unchanged: the configuration, CTRL, OVR, ARG, DATA, the latches,
`rst`, and the model's own `inputs` and `response`. -/
def SameHostSide (s t : State) : Prop :=
  t.cfg = s.cfg ∧ t.ie = s.ie ∧ t.ovr = s.ovr ∧ t.arg = s.arg ∧ t.data = s.data ∧
    t.lcmd = s.lcmd ∧ t.larg = s.larg ∧ t.ldata = s.ldata ∧ t.rst = s.rst ∧
    t.inputs = s.inputs ∧ t.response = s.response

/-- A completed command that wrote at most the listed vector registers. -/
def WroteOnlyVectors (vs : List Reg) (s t : State) : Prop :=
  CompletedOk s t ∧ SameVectorsExcept vs s t ∧ SameCompareFlags s t ∧ t.noinv = s.noinv ∧
    t.result = s.result ∧ SameHostSide s t

/-- A completed command that wrote RESULT only. -/
def WroteOnlyResult (s t : State) : Prop :=
  CompletedOk s t ∧ SameVectorsExcept [] s t ∧ SameCompareFlags s t ∧ t.noinv = s.noinv ∧
    SameHostSide s t

/-- A completed command that wrote EQ, LT and GT only. -/
def WroteOnlyCompareFlags (s t : State) : Prop :=
  CompletedOk s t ∧ SameVectorsExcept [] s t ∧ t.noinv = s.noinv ∧ t.result = s.result ∧
    SameHostSide s t

/-- A completed command that wrote NOINV and at most the listed vector registers. -/
def WroteOnlyNoinvAnd (vs : List Reg) (s t : State) : Prop :=
  CompletedOk s t ∧ SameVectorsExcept vs s t ∧ SameCompareFlags s t ∧ t.result = s.result ∧
    SameHostSide s t

/-! ## Views that claims use -/

/-- The word with the given fields, by the formula of R91. -/
def commandWord (op vd va vb vc imm : Nat) : Word :=
  BitVec.ofNat 32 (op <<< 26 ||| vd <<< 22 ||| va <<< 18 ||| vb <<< 14 ||| vc <<< 10 ||| imm)

/-- `x` is the word of the command `i`: it is what the encoder gives, and on every configuration that
has the registers `i` names it decodes to `i`. -/
def EncodedAs (x : Word) (i : Instr) : Prop :=
  encode i = x ∧ ∀ c : Config, i.wellFormed c = true → decode c x = .ok i

/-- The bit sequence of a vector, position 0 first (R10). -/
def Vec.bits (v : Vec) : List Bool := (List.range v.len).map v.bit

/-- The bit at an integer position, 0 outside the vector. -/
def Vec.bitAt (v : Vec) (p : Int) : Bool :=
  decide (0 ≤ p) && decide (p < (v.len : Int)) && v.bit p.toNat

/-- The one-bit shift primitives of R185, on bit sequences. -/
def rotl1 (l : List Bool) : List Bool := l.drop 1 ++ l.take 1
def rotr1 (l : List Bool) : List Bool := l.drop (l.length - 1) ++ l.take (l.length - 1)
def shl1 (l : List Bool) : List Bool := l.drop 1 ++ [false]
def shr1 (l : List Bool) : List Bool := false :: l.take (l.length - 1)

/-- The command `i` raises `e` in `s`. -/
def Raises (e : ErrorCode) (i : Instr) (s : State) : Prop :=
  ∃ t, exec i s = .next t ∧ RaisedError e s t

/-- The modulus and field-size checks of R201 on the modulus register `rm`, in their order. -/
def ChecksModulus (i : Instr) (rm : Reg) (s : State) : Prop :=
  (s.larg.toNat + 1 < (s.readV rm).len → Raises .invalidArgument i s) ∧
    ((s.readV rm).len ≤ s.larg.toNat + 1 → (s.readV rm).val = 0 → Raises .invalidArgument i s) ∧
    ((s.readV rm).len ≤ s.larg.toNat + 1 → (s.readV rm).val ≠ 0 → s.cfg.capBits < s.larg.toNat →
      Raises .capacity i s)

/-- The checks of R201 pass. -/
def ModulusPasses (rm : Reg) (s : State) : Prop :=
  (s.readV rm).len ≤ s.larg.toNat + 1 ∧ (s.readV rm).val ≠ 0 ∧ s.larg.toNat ≤ s.cfg.capBits

/-- The zero polynomial, or one of degree below the modulus (R14). -/
def Reduced (r m : Nat) : Prop := r = 0 ∨ deg r < deg m

/-- The polynomial `g` divides `x`. -/
def PolyDvd (g x : Nat) : Prop := ∃ k, x = clmul k g

/-- A host access of 32 bits at an offset of the register window. -/
def Access.ofOffset (c : Config) (off : Nat) (k : AccessKind) : Access := ⟨k, .bits32, c.base + off⟩

/-- The next event is the engine's turn, explicit or because no event is left (log 3). -/
def State.EngineNext (s : State) : Prop := (nextEvent s).1 = .engine

/-- The host access `a` is accepted: one 32-bit access at an aligned offset inside the window, while
`rst` is released (R65, R281). -/
abbrev Accepted (a : Access) (s : State) : Prop :=
  s.rst = false ∧ a.width = .bits32 ∧ s.cfg.base ≤ a.addr ∧ a.addr < s.cfg.base + 256 ∧
    (a.addr - s.cfg.base) % 4 = 0

/-- The engine completes the command `i` in this step. -/
def Completes (i : Instr) (s : State) : Prop :=
  s.EngineNext ∧ s.busy = true ∧ decode s.cfg s.lcmd = .ok i

/-- The next event is an accepted host write of `x` at offset `off`. -/
def HostWrites (off : Nat) (x : Word) (s : State) : Prop :=
  ∃ rest, s.inputs = .host (Access.ofOffset s.cfg off (.write x)) :: rest ∧ s.rst = false

/-- The next event is the assertion of `rst`. -/
def ResetNext (s : State) : Prop := ∃ rest, s.inputs = .assertReset :: rest

end Sys2Proof.Machine
end

