-- ==== Sys2Proof/Certificates/Slice0/Obligations.lean ====
section
/-! DEFINITION. The statements for the provers, by family: encoding, the step and the engine, the storage,
bitwise, shift and GF commands, the host interface, whole-machine rules, the invariant.

The events in `inputs`, with the engine's turn when none is left, and the port's answer in `response` are
the model's own fields (logs 3 and 7): a statement over every `inputs` speaks of every interleaving of
host and engine (D7). -/

open Sys2Proof Sys2Proof.Machine

/-! ## Encoding -/

/-- Every well-formed command is read back from its own word, every operand with it. -/
def Obligations.DecodeOfEncodeIsTheCommand : Prop :=
  ∀ (c : Config) (i : Instr), i.wellFormed c = true → decode c (encode i) = .ok i

/-- A word that decodes is the word of the command it decodes to, and that command is well formed: no
two words stand for one command. -/
def Obligations.DecodedWordIsTheEncoding : Prop :=
  ∀ (c : Config) (x : Word) (i : Instr), decode c x = .ok i → encode i = x ∧ i.wellFormed c = true

/-- The decoder accepts a word exactly when it selects a row of the opcode table (R96) and every register
field that row uses is below NV (R98), and no word selects two rows. -/
def Obligations.DecoderAcceptsExactlyTheTable : Prop :=
  ∀ (c : Config) (x : Word),
    ((∃ i, decode c x = .ok i) ↔
      ∃ r ∈ opcodeTable, r.selects x = true ∧ r.registersExist c x = true) ∧
    ∀ r ∈ opcodeTable, ∀ q ∈ opcodeTable, r.selects x = true → q.selects x = true → r = q

/-- Words printed in 95_test_vectors.md decode to the commands printed beside them. -/
def Obligations.PrintedWordsDecode : Prop :=
  decode Config.standard 0x00000000 = .ok .nop ∧
  decode Config.standard 0x14400001 = .ok (.setb 1 1) ∧
  decode Config.standard 0x24400000 = .ok (.wrw 1) ∧
  decode Config.standard 0x40804000 = .ok (.and 2 0 1) ∧
  decode Config.standard 0x50270000 = .ok (.cmp 9 12) ∧
  decode Config.standard 0x60400000 = .ok (.rotl 1) ∧
  decode Config.standard 0x86B36C00 = .ok (.gfdiv 10 11 12 13) ∧
  decode Config.standard 0x89500800 = .ok (.gfmulmod 5 4 0 2)

/-! ## The engine's turn -/

/-- A step runs the decoded command: with a command pending and the engine's turn next, the step is
`exec` of the decoded command on the state without the event. -/
def Obligations.StepRunsTheDecodedCommand : Prop :=
  ∀ (s : State) (i : Instr), s.EngineNext → s.busy = true → decode s.cfg s.lcmd = .ok i →
    step s = exec i (nextEvent s).2 ∧ (nextEvent s).2 = { s with inputs := s.inputs.tail }

/-- R97: an illegal word completes with ECODE = ILLEGAL and has no other effect. -/
def Obligations.IllegalWordRaisesIllegal : Prop :=
  ∀ s : State, s.EngineNext → s.busy = true →
    (¬ ∃ r ∈ opcodeTable, r.selects s.lcmd = true) →
    step s = .next { s with
      inputs := s.inputs.tail, ecode := .illegal, err := true, busy := false, done := true }

/-- R98: so does a word that selects a row but names a register at or above NV in a field it uses, which
cannot arise with NV = 16. -/
def Obligations.MissingRegisterRaisesIllegal : Prop :=
  (∀ s : State, s.EngineNext → s.busy = true →
    ∀ r ∈ opcodeTable, r.selects s.lcmd = true → r.registersExist s.cfg s.lcmd = false →
    step s = .next { s with
      inputs := s.inputs.tail, ecode := .illegal, err := true, busy := false, done := true }) ∧
  ∀ (c : Config) (x : Word), c.nv = 16 → ∀ r ∈ opcodeTable, r.registersExist c x = true

/-- R240, in every state and for every command: execution ends in a completion, BUSY = 0 and DONE = 1,
with ERR set exactly when it was set before or the code is an error. -/
def Obligations.EveryCommandCompletes : Prop :=
  ∀ (i : Instr) (s : State), ∃ t, exec i s = .next t ∧ t.busy = false ∧ t.done = true ∧
    (t.err = true ↔ s.err = true ∨ t.ecode ≠ .ok) ∧ SameHostSide s t

/-- R241: a command that raises an error changes only ECODE, ERR, BUSY and DONE, a decoded command and an
illegal word alike. -/
def Obligations.ErrorsWriteOnlyStatus : Prop :=
  ∀ s t : State, ((∃ i, exec i s = .next t) ∨ (s.busy = true ∧ engineStep s = .next t)) →
    t.ecode ≠ .ok →
    t = { s with ecode := t.ecode, err := true, busy := false, done := true }

/-- An accepted command completes although the host keeps accessing the window: after every accepted
access in `inputs` and one more step the engine has completed it. That the engine moves when no event
is left is the model's form of the fairness assumption of R290 (DESIGN CHOICE, log 3). -/
def Obligations.PendingCommandCompletesAfterTheInputs : Prop :=
  ∀ s : State, s.busy = true →
    (∀ e ∈ s.inputs, ∃ a, e = .host a ∧ Accepted a s) →
    ∃ t, core.run (s.inputs.length + 1) s = .next t ∧ t.busy = false ∧ t.done = true

/-! ## Packed bit storage -/

/-- R121: NOP is the word 0 exactly; it only completes, which raises the interrupt when IE = 1. -/
def Obligations.NopOnlyCompletes : Prop :=
  (∀ (c : Config) (x : Word), (decode c x = .ok .nop ↔ x = 0) ∧
    ((fieldsOf x).op = 0 → x ≠ 0 → decode c x = .error .reservedFieldNonzero)) ∧
  ∀ s : State, ∃ t, exec .nop s = .next t ∧ WroteOnlyVectors [] s t ∧ irq t = s.ie

/-- R122: ALLOC gives the zero vector of u32(LARG) bits, or raises CAPACITY. -/
def Obligations.AllocGivesTheZeroVector : Prop :=
  ∀ (s : State) (vd : Reg),
    EncodedAs (commandWord 0x01 vd 0 0 0 0) (.alloc vd) ∧
    (s.larg.toNat ≤ s.cfg.capBits → ∃ t, exec (.alloc vd) s = .next t ∧
      t.readV vd = ⟨s.larg.toNat, 0⟩ ∧ WroteOnlyVectors [vd] s t) ∧
    (s.cfg.capBits < s.larg.toNat → Raises .capacity (.alloc vd) s)

/-- R123: MOV copies the register. -/
def Obligations.MovCopiesTheRegister : Prop :=
  ∀ (s : State) (vd va : Reg),
    EncodedAs (commandWord 0x02 vd va 0 0 0) (.mov vd va) ∧
    ∃ t, exec (.mov vd va) s = .next t ∧ t.readV vd = s.readV va ∧ WroteOnlyVectors [vd] s t

/-- R124: GETLEN puts the length in RESULT; it never exceeds CAPBITS. -/
def Obligations.GetlenReadsTheLength : Prop :=
  ∀ (s : State) (va : Reg), s.Inv →
    EncodedAs (commandWord 0x03 0 va 0 0 0) (.getlen va) ∧
    ∃ t, exec (.getlen va) s = .next t ∧ t.result.toNat = (s.readV va).len ∧
      t.result.toNat ≤ s.cfg.capBits ∧ WroteOnlyResult s t

/-- R125: GETB reads the bit at a signed index, or raises RANGE. -/
def Obligations.GetbReadsTheIndexedBit : Prop :=
  ∀ (s : State) (va : Reg),
    EncodedAs (commandWord 0x04 0 va 0 0 0) (.getb va) ∧
    (∀ p : Nat, p < (s.readV va).len →
      (s.larg.toInt = p ∨ s.larg.toInt = (p : Int) - (s.readV va).len) →
      ∃ t, exec (.getb va) s = .next t ∧
        t.result.toNat = ((s.readV va).val >>> ((s.readV va).len - 1 - p)) &&& 1 ∧
        WroteOnlyResult s t) ∧
    (s.larg.toInt < -((s.readV va).len : Int) ∨ ((s.readV va).len : Int) ≤ s.larg.toInt →
      Raises .range (.getb va) s)

/-- R126: SETB writes one bit in place and keeps the length and every other bit; INVALID_VALUE is
checked before RANGE. -/
def Obligations.SetbWritesTheIndexedBit : Prop :=
  ∀ (s : State) (vd : Reg) (imm : BitVec 10),
    EncodedAs (commandWord 0x05 vd 0 0 0 imm.toNat) (.setb vd imm) ∧
    (imm.toNat ≤ 1 → ∀ p : Nat, p < (s.readV vd).len →
      (s.larg.toInt = p ∨ s.larg.toInt = (p : Int) - (s.readV vd).len) →
      ∃ t, exec (.setb vd imm) s = .next t ∧ (t.readV vd).len = (s.readV vd).len ∧
        (∀ k, (t.readV vd).val.testBit k =
          if k = (s.readV vd).len - 1 - p then decide (imm.toNat = 1)
          else (s.readV vd).val.testBit k) ∧
        WroteOnlyVectors [vd] s t) ∧
    (1 < imm.toNat → Raises .invalidValue (.setb vd imm) s) ∧
    (imm.toNat ≤ 1 →
      s.larg.toInt < -((s.readV vd).len : Int) ∨ ((s.readV vd).len : Int) ≤ s.larg.toInt →
      Raises .range (.setb vd imm) s)

/-- R127: FILL sets every bit to the immediate, the length unchanged, or raises INVALID_VALUE. -/
def Obligations.FillSetsEveryBit : Prop :=
  ∀ (s : State) (vd : Reg) (imm : BitVec 10),
    EncodedAs (commandWord 0x06 vd 0 0 0 imm.toNat) (.fill vd imm) ∧
    (imm.toNat ≤ 1 → ∃ t, exec (.fill vd imm) s = .next t ∧
      t.readV vd = ⟨(s.readV vd).len, if imm.toNat = 1 then 2 ^ (s.readV vd).len - 1 else 0⟩ ∧
      (∀ p < (s.readV vd).len, (t.readV vd).bit p = decide (imm.toNat = 1)) ∧
      WroteOnlyVectors [vd] s t) ∧
    (1 < imm.toNat → Raises .invalidValue (.fill vd imm) s)

/-- R128: PADL adds zeros on the left, so that the old bit at p moves to p + n, or raises CAPACITY. -/
def Obligations.PadlAddsZerosOnTheLeft : Prop :=
  ∀ (s : State) (vd : Reg),
    EncodedAs (commandWord 0x07 vd 0 0 0 0) (.padl vd) ∧
    ((s.readV vd).len + s.larg.toNat ≤ s.cfg.capBits → ∃ t, exec (.padl vd) s = .next t ∧
      t.readV vd = ⟨(s.readV vd).len + s.larg.toNat, (s.readV vd).val⟩ ∧
      (∀ p < (s.readV vd).len, (t.readV vd).bit (p + s.larg.toNat) = (s.readV vd).bit p) ∧
      WroteOnlyVectors [vd] s t) ∧
    (s.cfg.capBits < (s.readV vd).len + s.larg.toNat → Raises .capacity (.padl vd) s)

/-- R130: RDW reads one storage word, LSB-first, the bits at or above the length and above W zero, or
raises RANGE. -/
def Obligations.RdwReadsTheStorageWord : Prop :=
  ∀ (s : State) (va : Reg), s.Inv →
    EncodedAs (commandWord 0x08 0 va 0 0 0) (.rdw va) ∧
    (s.larg.toNat * s.cfg.w < (s.readV va).len → ∃ t, exec (.rdw va) s = .next t ∧
      (∀ j, t.result.getLsbD j = (decide (j < s.cfg.w) &&
        (decide (s.larg.toNat * s.cfg.w + j < (s.readV va).len) &&
          (s.readV va).bit (s.larg.toNat * s.cfg.w + j)))) ∧
      WroteOnlyResult s t) ∧
    ((s.readV va).len ≤ s.larg.toNat * s.cfg.w → Raises .range (.rdw va) s)

/-- R131: WRW writes one storage word in place from LDATA[W-1:0]; bits beyond the length are
discarded, every other position and the length are kept; RANGE beyond the last word. -/
def Obligations.WrwWritesTheStorageWord : Prop :=
  ∀ (s : State) (vd : Reg), s.Inv →
    EncodedAs (commandWord 0x09 vd 0 0 0 0) (.wrw vd) ∧
    (s.larg.toNat * s.cfg.w < (s.readV vd).len → ∃ t, exec (.wrw vd) s = .next t ∧
      (t.readV vd).len = (s.readV vd).len ∧ (t.readV vd).val < 2 ^ (s.readV vd).len ∧
      (∀ q < (s.readV vd).len, (t.readV vd).bit q =
        if s.larg.toNat * s.cfg.w ≤ q ∧ q < s.larg.toNat * s.cfg.w + s.cfg.w then
          s.ldata.getLsbD (q - s.larg.toNat * s.cfg.w)
        else (s.readV vd).bit q) ∧
      WroteOnlyVectors [vd] s t) ∧
    ((s.readV vd).len ≤ s.larg.toNat * s.cfg.w → Raises .range (.wrw vd) s)

/-- R132: RDB reads one byte, MSB first; INVALID_OPERATION before RANGE. -/
def Obligations.RdbReadsTheByte : Prop :=
  ∀ (s : State) (va : Reg),
    EncodedAs (commandWord 0x0A 0 va 0 0 0) (.rdb va) ∧
    ((s.readV va).len % 8 = 0 → s.larg.toNat < (s.readV va).len / 8 →
      ∃ t, exec (.rdb va) s = .next t ∧
        t.result.toNat =
          ((s.readV va).val >>> ((s.readV va).len - 8 * s.larg.toNat - 8)) &&& 0xFF ∧
        (∀ j < 8, t.result.getLsbD (7 - j) = (s.readV va).bit (8 * s.larg.toNat + j)) ∧
        WroteOnlyResult s t) ∧
    ((s.readV va).len % 8 ≠ 0 → Raises .invalidOperation (.rdb va) s) ∧
    ((s.readV va).len % 8 = 0 → (s.readV va).len / 8 ≤ s.larg.toNat → Raises .range (.rdb va) s)

/-- A bit written by SETB is the bit GETB reads back at the same index, and RESULT is that bit. -/
def Obligations.GetbReadsBackSetb : Prop :=
  ∀ (s t u : State) (vd : Reg) (imm : BitVec 10),
    exec (.setb vd imm) s = .next t → t.ecode = .ok → exec (.getb vd) t = .next u →
    u.ecode = .ok ∧ u.result.toNat = imm.toNat

/-- A word written by WRW is read back by RDW at the same index, less the bits at or above W and those
beyond the length (invariant I1). -/
def Obligations.RdwReadsBackWrw : Prop :=
  ∀ (s t u : State) (vd : Reg), s.Inv →
    exec (.wrw vd) s = .next t → t.ecode = .ok → exec (.rdw vd) t = .next u →
    u.ecode = .ok ∧ ∀ j, u.result.getLsbD j = (s.ldata.getLsbD j &&
      (decide (j < s.cfg.w) && decide (s.larg.toNat * s.cfg.w + j < (s.readV vd).len)))

/-! ## Bitwise algebra and comparison -/

/-- R161, R162, R163: AND, OR and XOR combine the values and take the larger length. -/
def Obligations.AndOrXorCombineValues : Prop :=
  ∀ (s : State) (vd va vb : Reg),
    EncodedAs (commandWord 0x10 vd va vb 0 0) (.and vd va vb) ∧
    EncodedAs (commandWord 0x11 vd va vb 0 0) (.or vd va vb) ∧
    EncodedAs (commandWord 0x12 vd va vb 0 0) (.xor vd va vb) ∧
    (∃ t, exec (.and vd va vb) s = .next t ∧
      t.readV vd = ⟨max (s.readV va).len (s.readV vb).len, (s.readV va).val &&& (s.readV vb).val⟩ ∧
      WroteOnlyVectors [vd] s t) ∧
    (∃ t, exec (.or vd va vb) s = .next t ∧
      t.readV vd = ⟨max (s.readV va).len (s.readV vb).len, (s.readV va).val ||| (s.readV vb).val⟩ ∧
      WroteOnlyVectors [vd] s t) ∧
    (∃ t, exec (.xor vd va vb) s = .next t ∧
      t.readV vd = ⟨max (s.readV va).len (s.readV vb).len, (s.readV va).val ^^^ (s.readV vb).val⟩ ∧
      WroteOnlyVectors [vd] s t)

/-- R160, on values and by position: position p of the result, counted from the left of the larger length
L, is the operation on the operands' bits at p - (L - len), 0 where the shorter operand is padded.
The result is below 2^L and L is at most CAPBITS, so no CAPACITY can arise, and the sources keep
their lengths. -/
def Obligations.BinaryOpsPadOnTheLeft : Prop :=
  ∀ (s t : State) (i : Instr) (vd va vb : Reg) (g : Nat → Nat → Nat) (f : Bool → Bool → Bool), s.Inv →
    ((i = .and vd va vb ∧ g = (· &&& ·) ∧ f = and) ∨ (i = .or vd va vb ∧ g = (· ||| ·) ∧ f = or) ∨
      (i = .xor vd va vb ∧ g = (· ^^^ ·) ∧ f = xor)) →
    exec i s = .next t →
    t.ecode = .ok ∧ (∀ r, r ≠ vd → t.readV r = s.readV r) ∧
    t.readV vd = ⟨max (s.readV va).len (s.readV vb).len, g (s.readV va).val (s.readV vb).val⟩ ∧
    (t.readV vd).len ≤ s.cfg.capBits ∧ (t.readV vd).val < 2 ^ (t.readV vd).len ∧
    ∀ p < (t.readV vd).len, (t.readV vd).bit p =
      f ((s.readV va).bitAt ((p : Int) - ((t.readV vd).len - (s.readV va).len)))
        ((s.readV vb).bitAt ((p : Int) - ((t.readV vd).len - (s.readV vb).len)))

/-- R166: NOT inverts every bit of the source's length and nothing above it, and twice restores. -/
def Obligations.NotInvertsEveryBit : Prop :=
  ∀ (s : State) (vd va : Reg), s.Inv →
    EncodedAs (commandWord 0x13 vd va 0 0 0) (.not vd va) ∧
    ∃ t, exec (.not vd va) s = .next t ∧ (t.readV vd).len = (s.readV va).len ∧
      (t.readV vd).val = 2 ^ (s.readV va).len - 1 - (s.readV va).val ∧
      (∀ p < (s.readV va).len, (t.readV vd).bit p = !(s.readV va).bit p) ∧
      WroteOnlyVectors [vd] s t ∧
      ∀ (w : Reg) (u : State), exec (.not w vd) t = .next u → u.readV w = s.readV va

/-- R167 with R164: CMP writes EQ, LT and GT, all three at once. -/
def Obligations.CmpWritesEqLtGt : Prop :=
  ∀ (s : State) (va vb : Reg),
    EncodedAs (commandWord 0x14 0 va vb 0 0) (.cmp va vb) ∧
    ∃ t, exec (.cmp va vb) s = .next t ∧
      (t.eq = true ↔ s.readV va = s.readV vb) ∧
      (t.lt = true ↔ (s.readV va).val < (s.readV vb).val) ∧
      (t.gt = true ↔ (s.readV vb).val < (s.readV va).val) ∧
      WroteOnlyCompareFlags s t

/-! ## Shifts -/

/-- R181: ROTL moves the bit at (p + n) mod L to p, for a count of either sign. -/
def Obligations.RotlMovesBitsLeft : Prop :=
  ∀ (s : State) (vd : Reg), s.Inv →
    EncodedAs (commandWord 0x18 vd 0 0 0 0) (.rotl vd) ∧
    ((s.readV vd).len = 0 → Raises .invalidOperation (.rotl vd) s) ∧
    ((s.readV vd).len ≠ 0 → ∃ t, exec (.rotl vd) s = .next t ∧
      (t.readV vd).len = (s.readV vd).len ∧ (t.readV vd).val < 2 ^ (s.readV vd).len ∧
      (∀ p < (s.readV vd).len, (t.readV vd).bit p =
        (s.readV vd).bit (((p : Int) + s.larg.toInt) % (s.readV vd).len).toNat) ∧
      WroteOnlyVectors [vd] s t)

/-- R182: ROTR moves the bit at (p - n) mod L to p, for a count of either sign. -/
def Obligations.RotrMovesBitsRight : Prop :=
  ∀ (s : State) (vd : Reg), s.Inv →
    EncodedAs (commandWord 0x19 vd 0 0 0 0) (.rotr vd) ∧
    ((s.readV vd).len = 0 → Raises .invalidOperation (.rotr vd) s) ∧
    ((s.readV vd).len ≠ 0 → ∃ t, exec (.rotr vd) s = .next t ∧
      (t.readV vd).len = (s.readV vd).len ∧ (t.readV vd).val < 2 ^ (s.readV vd).len ∧
      (∀ p < (s.readV vd).len, (t.readV vd).bit p =
        (s.readV vd).bit (((p : Int) - s.larg.toInt) % (s.readV vd).len).toNat) ∧
      WroteOnlyVectors [vd] s t)

/-- R183: SHL moves the bit at p + n to p, 0 from outside the vector, for a count of either sign. -/
def Obligations.ShlMovesBitsLeft : Prop :=
  ∀ (s : State) (vd : Reg), s.Inv →
    EncodedAs (commandWord 0x1A vd 0 0 0 0) (.shl vd) ∧
    ((s.readV vd).len = 0 → Raises .invalidOperation (.shl vd) s) ∧
    ((s.readV vd).len ≠ 0 → ∃ t, exec (.shl vd) s = .next t ∧
      (t.readV vd).len = (s.readV vd).len ∧ (t.readV vd).val < 2 ^ (s.readV vd).len ∧
      (∀ p < (s.readV vd).len, (t.readV vd).bit p =
        (s.readV vd).bitAt ((p : Int) + s.larg.toInt)) ∧
      WroteOnlyVectors [vd] s t)

/-- R184: SHR moves the bit at p - n to p, 0 from outside the vector, for a count of either sign. -/
def Obligations.ShrMovesBitsRight : Prop :=
  ∀ (s : State) (vd : Reg), s.Inv →
    EncodedAs (commandWord 0x1B vd 0 0 0 0) (.shr vd) ∧
    ((s.readV vd).len = 0 → Raises .invalidOperation (.shr vd) s) ∧
    ((s.readV vd).len ≠ 0 → ∃ t, exec (.shr vd) s = .next t ∧
      (t.readV vd).len = (s.readV vd).len ∧ (t.readV vd).val < 2 ^ (s.readV vd).len ∧
      (∀ p < (s.readV vd).len, (t.readV vd).bit p =
        (s.readV vd).bitAt ((p : Int) - s.larg.toInt)) ∧
      WroteOnlyVectors [vd] s t)

/-- R180: every shift is |n| applications of its one-bit primitive (R185, on positions), the mirror
primitive for a negative count, in place, and raises INVALID_OPERATION on an empty register for
every count. -/
def Obligations.ShiftsIterateTheOneBitPrimitive : Prop :=
  ∀ (s : State) (vd : Reg) (i : Instr) (fwd bwd : List Bool → List Bool), s.Inv →
    ((i = .rotl vd ∧ fwd = rotl1 ∧ bwd = rotr1) ∨ (i = .rotr vd ∧ fwd = rotr1 ∧ bwd = rotl1) ∨
      (i = .shl vd ∧ fwd = shl1 ∧ bwd = shr1) ∨ (i = .shr vd ∧ fwd = shr1 ∧ bwd = shl1)) →
    ((s.readV vd).len = 0 → Raises .invalidOperation i s) ∧
    ((s.readV vd).len ≠ 0 → ∃ t, exec i s = .next t ∧ (t.readV vd).len = (s.readV vd).len ∧
      (t.readV vd).bits =
        (if 0 ≤ s.larg.toInt then fwd else bwd)^[s.larg.toInt.natAbs] (s.readV vd).bits ∧
      WroteOnlyVectors [vd] s t)

/-- R186: the shift laws. -/
def Obligations.ShiftLaws : Prop :=
  ∀ (s t : State) (vd : Reg), s.Inv → (s.readV vd).len ≠ 0 →
    (exec (.rotl vd) s = .next t →
      (∀ u, exec (.rotr vd) t = .next u → u.readV vd = s.readV vd) ∧
      (∀ u, exec (.rotl vd)
          { s with larg := BitVec.ofInt 32 (s.larg.toInt % (s.readV vd).len) } = .next u →
        u.readV vd = t.readV vd) ∧
      (∀ u, exec (.rotr vd) { s with
          larg := BitVec.ofInt 32 ((s.readV vd).len - s.larg.toInt % (s.readV vd).len) } = .next u →
        u.readV vd = t.readV vd)) ∧
    (exec (.rotr vd) s = .next t →
      ∀ u, exec (.rotl vd) t = .next u → u.readV vd = s.readV vd) ∧
    (exec (.shl vd) s = .next t → 0 ≤ s.larg.toInt → s.larg.toInt ≤ (s.readV vd).len →
      ∀ u, exec (.shr vd) t = .next u →
        u.readV vd = ⟨(s.readV vd).len,
          (s.readV vd).val &&& (2 ^ ((s.readV vd).len - s.larg.toInt.toNat) - 1)⟩)

/-! ## GF(2) and GF(2^n) arithmetic -/

/-- The loops of R14 and R206 end within the bounds the model gives them (DEDUCED, log 14): with any larger
bound the quotient, the remainder, the gcd and the coefficient are the same. For x = 0 the division's bound
is taken from the model's deg 0 = 0 (DESIGN CHOICE, log 17). -/
def Obligations.LoopBoundsAreEnough : Prop :=
  ∀ x m n : Nat, m ≠ 0 →
    (deg x + 1 ≤ n → pdivLoop m n 0 x = pdivmod x m) ∧
    (deg m + 1 ≤ n → pgcdLoop n x m = pgcd x m ∧ euclidLoop m n x m 1 0 = euclid x m)

/-- `pgcd` is a common divisor that every common divisor divides (R15), and what `euclid` returns. -/
def Obligations.PgcdIsTheGreatestCommonDivisor : Prop :=
  ∀ x m : Nat, m ≠ 0 →
    PolyDvd (pgcd x m) x ∧ PolyDvd (pgcd x m) m ∧
    (∀ d, PolyDvd d x → PolyDvd d m → PolyDvd d (pgcd x m)) ∧ (euclid x m).1 = pgcd x m

/-- R201: the modulus and field-size checks of GFDIV, GFMULMOD and GFINV, in their order, and no other
check: where they pass, the command completes with OK. -/
def Obligations.ModulusChecksComeInOrder : Prop :=
  ∀ (s : State) (i : Instr) (rm : Reg),
    ((∃ vd vc va, i = .gfdiv vd vc va rm) ∨ (∃ vd va vb, i = .gfmulmod vd va vb rm) ∨
      ∃ vd va, i = .gfinv vd va rm) →
    ChecksModulus i rm s ∧ (ModulusPasses rm s → ∃ t, exec i s = .next t ∧ t.ecode = .ok)

/-- R202: GFMUL. Bit k of the product is the parity of the pairs of set bits whose positions add up to
k; the length is the sum of the lengths; the degree of a product of nonzero operands is the sum of
the degrees; the product is commutative. -/
def Obligations.GfmulIsTheCarryFreeProduct : Prop :=
  ∀ (s : State) (vd va vb : Reg), s.Inv →
    EncodedAs (commandWord 0x20 vd va vb 0 0) (.gfmul vd va vb) ∧
    ((s.readV va).len + (s.readV vb).len ≤ s.cfg.capBits →
      ∃ t, exec (.gfmul vd va vb) s = .next t ∧
        (t.readV vd).len = (s.readV va).len + (s.readV vb).len ∧
        (t.readV vd).val < 2 ^ ((s.readV va).len + (s.readV vb).len) ∧
        (∀ k, (t.readV vd).val.testBit k = decide (((List.range (k + 1)).countP fun j =>
          (s.readV vb).val.testBit j && (s.readV va).val.testBit (k - j)) % 2 = 1)) ∧
        ((s.readV va).val ≠ 0 → (s.readV vb).val ≠ 0 →
          deg (t.readV vd).val = deg (s.readV va).val + deg (s.readV vb).val) ∧
        (∃ u, exec (.gfmul vd vb va) s = .next u ∧ u.readV vd = t.readV vd) ∧
        WroteOnlyVectors [vd] s t) ∧
    (s.cfg.capBits < (s.readV va).len + (s.readV vb).len → Raises .capacity (.gfmul vd va vb) s)

/-- R203 with R204: GFDIV gives the quotient, of the dividend's length, and the remainder, of exactly n
bits: quotient times modulus plus remainder is the dividend, the remainder is reduced, no set bit of
either is lost, and the remainder wins when both go to one register. -/
def Obligations.GfdivDividesWithRemainder : Prop :=
  ∀ (s : State) (vd vc va vb : Reg), s.Inv →
    EncodedAs (commandWord 0x21 vd va vb vc 0) (.gfdiv vd vc va vb) ∧
    ChecksModulus (.gfdiv vd vc va vb) vb s ∧
    (ModulusPasses vb s → ∃ (t : State) (q r : Nat), exec (.gfdiv vd vc va vb) s = .next t ∧
      clmul q (s.readV vb).val ^^^ r = (s.readV va).val ∧ Reduced r (s.readV vb).val ∧
      q < 2 ^ (s.readV va).len ∧ r < 2 ^ s.larg.toNat ∧
      t.readV vc = ⟨s.larg.toNat, r⟩ ∧ (vd ≠ vc → t.readV vd = ⟨(s.readV va).len, q⟩) ∧
      WroteOnlyVectors [vd, vc] s t)

/-- R205: GFMULMOD gives the remainder of the product of the factors, of n bits, whatever the length of
the product. -/
def Obligations.GfmulmodReducesTheProduct : Prop :=
  ∀ (s : State) (vd va vb vc : Reg), s.Inv →
    EncodedAs (commandWord 0x22 vd va vb vc 0) (.gfmulmod vd va vb vc) ∧
    ChecksModulus (.gfmulmod vd va vb vc) vc s ∧
    (ModulusPasses vc s → ∃ (t : State) (q r : Nat), exec (.gfmulmod vd va vb vc) s = .next t ∧
      clmul q (s.readV vc).val ^^^ r = clmul (s.readV va).val (s.readV vb).val ∧
      Reduced r (s.readV vc).val ∧ r < 2 ^ s.larg.toNat ∧ t.readV vd = ⟨s.larg.toNat, r⟩ ∧
      WroteOnlyVectors [vd] s t)

/-- R207 with R208: GFINV gives the one reduced value whose product with the element is 1 modulo the
modulus when the gcd is 1, and otherwise reports NOINV and writes no register. -/
def Obligations.GfinvGivesTheInverseOrNoinv : Prop :=
  ∀ (s : State) (vd va vb : Reg), s.Inv →
    EncodedAs (commandWord 0x23 vd va vb 0 0) (.gfinv vd va vb) ∧
    ChecksModulus (.gfinv vd va vb) vb s ∧
    (ModulusPasses vb s → pgcd (s.readV va).val (s.readV vb).val ≠ 1 →
      ∃ t, exec (.gfinv vd va vb) s = .next t ∧ t.noinv = true ∧ WroteOnlyNoinvAnd [] s t) ∧
    (ModulusPasses vb s → pgcd (s.readV va).val (s.readV vb).val = 1 →
      ∃ (t : State) (u : Nat), exec (.gfinv vd va vb) s = .next t ∧ t.noinv = false ∧
        t.readV vd = ⟨s.larg.toNat, u⟩ ∧ u < 2 ^ s.larg.toNat ∧
        pmod (clmul (s.readV va).val u) (s.readV vb).val = pmod 1 (s.readV vb).val ∧
        (1 ≤ deg (s.readV vb).val → pmod 1 (s.readV vb).val = 1) ∧ Reduced u (s.readV vb).val ∧
        (∀ u', Reduced u' (s.readV vb).val →
          pmod (clmul (s.readV va).val u') (s.readV vb).val = pmod 1 (s.readV vb).val → u' = u) ∧
        WroteOnlyNoinvAnd [vd] s t)

/-- GFINV reports NOINV exactly when no inverse exists, the modulus irreducible or not (R209). -/
def Obligations.NoinvExactlyWhenNoInverseExists : Prop :=
  ∀ (s t : State) (vd va vb : Reg), ModulusPasses vb s → exec (.gfinv vd va vb) s = .next t →
    (t.noinv = true ↔
      ¬ ∃ u, pmod (clmul (s.readV va).val u) (s.readV vb).val = pmod 1 (s.readV vb).val)

/-! ## The host interface -/

/-- R47: a CMD write while BUSY is discarded and sets OVR; otherwise the word, ARG and DATA are
latched, BUSY = 1 and DONE = 0; no later step changes the latches of the pending command. -/
def Obligations.CmdWriteIsAcceptedOrOverruns : Prop :=
  (∀ (s : State) (x : Word) (rest : List Event),
    s.inputs = .host (Access.ofOffset s.cfg 0x10 (.write x)) :: rest → s.rst = false →
    (s.busy = true → step s = .next { s with
      inputs := rest, response := some .ack, ovr := true }) ∧
    (s.busy = false → step s = .next { s with
      inputs := rest, response := some .ack, lcmd := x, larg := s.arg, ldata := s.data,
      busy := true, done := false })) ∧
  ∀ s t : State, step s = .next t → s.busy = true → t.busy = true →
    t.lcmd = s.lcmd ∧ t.larg = s.larg ∧ t.ldata = s.ldata

/-- A read of an accepted offset answers the register's value and changes no state of the block. -/
def Obligations.ReadsAnswerTheRegisterMap : Prop :=
  ∀ (s : State) (off : Nat) (rest : List Event), s.cfg.Legal → off < 256 → off % 4 = 0 →
    s.inputs = .host (Access.ofOffset s.cfg off .read) :: rest → s.rst = false →
    ∃ v : Word, step s = .next { s with inputs := rest, response := some (.data v) } ∧
      (off = 0x00 → v = 0x42560001) ∧
      (off = 0x04 → v.toNat = s.cfg.capBits + s.cfg.w * 2 ^ 16 + s.cfg.nv * 2 ^ 24) ∧
      (off = 0x08 → v.toNat = s.ie.toNat) ∧
      (off = 0x0C → v.toNat = s.busy.toNat + 2 * s.done.toNat + 4 * s.eq.toNat + 8 * s.lt.toNat +
        16 * s.gt.toNat + 32 * s.noinv.toNat + 64 * s.err.toNat + 128 * s.ovr.toNat +
        256 * s.ecode.code.toNat) ∧
      (off = 0x14 → v = s.arg) ∧ (off = 0x18 → v = s.data) ∧ (off = 0x1C → v = s.result) ∧
      (off = 0x10 ∨ 0x20 ≤ off → v = 0)

/-- A write of an accepted offset other than CMD: CTRL.IE, the write-one-to-clear bits of STATUS, ARG
or DATA, and nothing else; ID, PARAM, RESULT and the reserved offsets ignore it. -/
def Obligations.WritesFollowTheRegisterMap : Prop :=
  ∀ (s : State) (off : Nat) (x : Word) (rest : List Event), off < 256 → off % 4 = 0 → off ≠ 0x10 →
    s.inputs = .host (Access.ofOffset s.cfg off (.write x)) :: rest → s.rst = false →
    ∃ t, step s = .next { t with inputs := rest, response := some .ack } ∧
      (off = 0x08 → t = { s with ie := x.getLsbD 0 }) ∧
      (off = 0x0C → t = { s with
        done := s.done && !x.getLsbD 1, err := s.err && !x.getLsbD 6,
        ovr := s.ovr && !x.getLsbD 7 }) ∧
      (off = 0x14 → t = { s with arg := x }) ∧ (off = 0x18 → t = { s with data := x }) ∧
      (off ≠ 0x08 ∧ off ≠ 0x0C ∧ off ≠ 0x14 ∧ off ≠ 0x18 → t = s)

/-- R65: an access that is not one aligned 32-bit access inside the window (or comes while `rst` is
asserted) is answered with an error, leaves all state unchanged, and is a fault of the host step;
every other access is performed. -/
def Obligations.RefusedAccessFaultsAndChangesNothing : Prop :=
  ∀ (s : State) (a : Access) (rest : List Event), s.inputs = .host a :: rest →
    (¬ Accepted a s → busAccess a s = (s, .error) ∧ ∃ cause, step s = .fault (.busError cause)) ∧
    (Accepted a s → ∃ t, step s = .next t)

/-- Nothing but a refused host access stops the machine, and no step is refused (R250). -/
def Obligations.OnlyRefusedAccessesStopTheMachine : Prop :=
  ∀ s : State, (∃ t, step s = .next t) ∨
    ∃ (a : Access) (rest : List Event) (cause : BusErrorCause), s.inputs = .host a :: rest ∧
      ¬ Accepted a s ∧ step s = .fault (.busError cause)

/-! ## Whole-machine rules -/

/-- R42: BUSY rises at acceptance and only there, falls at completion and only there (or at reset), and
as long as a command is pending no vector register, RESULT, EQ, LT, GT, NOINV or ECODE changes. -/
def Obligations.BusyAndAtomicCommit : Prop :=
  ∀ s t : State, step s = .next t →
    (s.busy = false → (t.busy = true ↔ ∃ x, HostWrites 0x10 x s)) ∧
    (s.busy = true → (t.busy = false ↔ s.EngineNext ∨ ResetNext s)) ∧
    (t.busy = true → t.vectors = s.vectors ∧ t.result = s.result ∧ SameCompareFlags s t ∧
      t.noinv = s.noinv ∧ t.ecode = s.ecode)

/-- R43: DONE rises at every completion and only there; it falls at acceptance, at a STATUS write with
bit 1 set, or at reset, and only there. -/
def Obligations.DoneRisesAtCompletion : Prop :=
  ∀ s t : State, step s = .next t →
    (s.done = false → (t.done = true ↔ s.EngineNext ∧ s.busy = true)) ∧
    (s.done = true → (t.done = false ↔
      (∃ x, HostWrites 0x10 x s ∧ s.busy = false) ∨
        (∃ x, HostWrites 0x0C x s ∧ x.getLsbD 1 = true) ∨ ResetNext s))

/-- R44: EQ, LT and GT are written only by a CMP that completes (or at reset); after one at most one of
them is set, and all three can be 0. -/
def Obligations.OnlyCmpWritesCompareFlags : Prop :=
  (∀ s t : State, step s = .next t →
    (¬ SameCompareFlags s t → (∃ va vb, Completes (.cmp va vb) s) ∨ ResetNext s) ∧
    (∀ va vb, Completes (.cmp va vb) s → t.ecode = .ok ∧ t.FlagsExclusive)) ∧
  ∃ (s t : State) (va vb : Reg), s.Inv ∧ exec (.cmp va vb) s = .next t ∧
    t.eq = false ∧ t.lt = false ∧ t.gt = false

/-- R45: NOINV is written only by a GFINV that completes with OK (or at reset): 1 when no inverse exists,
0 when one does. -/
def Obligations.OnlyGfinvWritesNoinv : Prop :=
  ∀ s t : State, step s = .next t →
    (t.noinv ≠ s.noinv →
      (∃ vd va vb, Completes (.gfinv vd va vb) s ∧ t.ecode = .ok) ∨ ResetNext s) ∧
    (∀ vd va vb, Completes (.gfinv vd va vb) s → t.ecode = .ok →
      (t.noinv = true ↔ pgcd (s.readV va).val (s.readV vb).val ≠ 1))

/-- R39: RESULT is written only by a GETLEN, GETB, RDW or RDB that completes with OK (or at reset). -/
def Obligations.OnlyReadCommandsWriteResult : Prop :=
  ∀ s t : State, step s = .next t → t.result ≠ s.result →
    (t.ecode = .ok ∧ ∃ va, Completes (.getlen va) s ∨ Completes (.getb va) s ∨
      Completes (.rdw va) s ∨ Completes (.rdb va) s) ∨ ResetNext s

/-- R46: ECODE changes only at a completion, to that command's code, ILLEGAL for a word that does not
decode; ERR rises at every completion whose code is an error and OVR at a CMD write while BUSY, and only
there; each falls at a STATUS write with its bit set (or at reset) and only there, and that write leaves
ECODE as it is. -/
def Obligations.EcodeErrAndOvrRules : Prop :=
  ∀ s t : State, step s = .next t →
    (t.ecode ≠ s.ecode → (s.EngineNext ∧ s.busy = true) ∨ ResetNext s) ∧
    (∀ i, Completes i s → exec i (nextEvent s).2 = .next t) ∧
    (s.EngineNext → s.busy = true → (∀ i, ¬ Completes i s) → t.ecode = .illegal) ∧
    (s.err = false → (t.err = true ↔ s.EngineNext ∧ s.busy = true ∧ t.ecode ≠ .ok)) ∧
    (s.err = true →
      (t.err = false ↔ (∃ x, HostWrites 0x0C x s ∧ x.getLsbD 6 = true) ∨ ResetNext s)) ∧
    (s.ovr = false → (t.ovr = true ↔ s.busy = true ∧ ∃ x, HostWrites 0x10 x s)) ∧
    (s.ovr = true →
      (t.ovr = false ↔ (∃ x, HostWrites 0x0C x s ∧ x.getLsbD 7 = true) ∨ ResetNext s)) ∧
    (∀ x, HostWrites 0x0C x s → t.ecode = s.ecode)

/-- A vector register changes only when the engine completes a command, or at reset; the configuration
never changes; an idle engine changes nothing (R260). -/
def Obligations.VectorsChangeOnlyAtCompletion : Prop :=
  ∀ s t : State, step s = .next t →
    t.cfg = s.cfg ∧
    (t.vectors ≠ s.vectors → (t.ecode = .ok ∧ ∃ i, Completes i s) ∨ ResetNext s) ∧
    (s.EngineNext → s.busy = false → t = { s with inputs := s.inputs.tail })

/-- The interrupt output rises only at a completion with IE = 1 or at a CTRL write that sets IE while
DONE = 1, and falls only at acceptance, at a STATUS write that clears DONE, at a CTRL write that
clears IE, or at reset. The rise at a CTRL write is the model's reading (DEDUCED, log 16): it follows the
formula of R252, where R280's last sentence has irq 0 until the first completion with IE = 1. -/
def Obligations.IrqRisesAndFalls : Prop :=
  ∀ s t : State, step s = .next t →
    (irq s = false → irq t = true →
      (s.EngineNext ∧ s.busy = true ∧ s.ie = true) ∨
        (∃ x, HostWrites 0x08 x s ∧ x.getLsbD 0 = true ∧ s.done = true)) ∧
    (irq s = true → irq t = false →
      (∃ x, HostWrites 0x10 x s ∧ s.busy = false) ∨
        (∃ x, HostWrites 0x0C x s ∧ x.getLsbD 1 = true) ∨
        (∃ x, HostWrites 0x08 x s ∧ x.getLsbD 0 = false) ∨ ResetNext s)

/-- R286: ARG and DATA are latched at acceptance, and a command reads the latched ones: whatever the host
writes to ARG and DATA afterwards, it ends in the same way. -/
def Obligations.LaterArgAndDataDoNotMatter : Prop :=
  (∀ (s : State) (x : Word), s.busy = false →
    (offerCommand x s).larg = s.arg ∧ (offerCommand x s).ldata = s.data) ∧
  ∀ (i : Instr) (s t : State) (a d : Word), exec i s = .next t →
    exec i { s with arg := a, data := d } = .next { t with arg := a, data := d }

/-- A command depends on the registers its word names and on no others: two states that differ only in
other registers end alike, and each keeps its other registers. -/
def Obligations.CommandsSeeOnlyTheirRegisters : Prop :=
  ∀ (i : Instr) (s s' t t' : State), s' = { s with vectors := s'.vectors } →
    (∀ r ∈ i.regs, s'.readV r = s.readV r) → exec i s = .next t → exec i s' = .next t' →
    t' = { t with vectors := t'.vectors } ∧ (∀ r ∈ i.regs, t'.readV r = t.readV r) ∧
      SameVectorsExcept i.regs s t ∧ SameVectorsExcept i.regs s' t'

/-! ## Reset and the invariant -/

/-- Asserting `rst` empties every vector register and clears CTRL.IE, every STATUS field, ARG, DATA and
RESULT, and `irq` is 0 (R280; 10_state.md section 6). The latches, for which the
spec gives no value, are left out (log 2). -/
def Obligations.ResetClearsEveryRegister : Prop :=
  ∀ s : State, ResetNext s → ∃ t, step s = .next t ∧ t.AtResetValues ∧ t.cfg = s.cfg

/-- From R281: asserting `rst` discards a pending command; while it is asserted every access is refused
and no step leaves the reset values, so none of the command's effects is ever committed, and the first
access accepted after the release sees them. Two points are the model's: the cause `inReset` for every
access, one that R65 refuses as well among them (DESIGN CHOICE, log 4, the order of causes), and the
release as an event of its own (DEDUCED, log 5). -/
def Obligations.ResetDiscardsThePendingCommand : Prop :=
  (∀ s t : State, ResetNext s → step s = .next t → t.AtResetValues ∧ t.rst = true) ∧
  ∀ s : State, s.AtResetValues → s.rst = true →
    (∀ (a : Access) (rest : List Event), s.inputs = .host a :: rest →
      busAccess a s = (s, .error) ∧ step s = .fault (.busError .inReset)) ∧
    (∀ t, step s = .next t → t.AtResetValues ∧
      (t.rst = false → ∃ rest, s.inputs = .releaseReset :: rest))

/-- The model's invariant holds in the state after reset, on every legal configuration. -/
def Obligations.InvariantHoldsAtReset : Prop :=
  (∀ c : Config, c.Legal → (State.resetOf c).Inv) ∧ State.reset.Inv

/-- Every step keeps the model's invariant: legal parameters, canonical vector storage, exclusive comparison
flags, DONE clear while BUSY, reset values while `rst` is asserted. -/
def Obligations.StepKeepsTheInvariant : Prop :=
  ∀ s t : State, s.Inv → step s = .next t → t.Inv
end

