-- ==== Sys2Proof/Laws/Decode.lean ====
section
/-! SUPPORT. The field layout loses no bit, in either direction, and what the decoder answers. -/

namespace Sys2Proof

theorem fieldsOf_assemble (f : Fields) : fieldsOf (assemble f) = f := by
  cases f
  simp only [fieldsOf, assemble, Fields.mk.injEq]
  refine ⟨?_, ?_, ?_, ?_, ?_, ?_⟩ <;>
    (apply BitVec.eq_of_getLsbD_eq
     intro i hi
     simp only [BitVec.getLsbD_extractLsb', BitVec.getLsbD_append, hi, decide_true, Bool.true_and])
  all_goals grind

theorem assemble_fieldsOf (x : Word) : assemble (fieldsOf x) = x := by
  simp only [fieldsOf, assemble]
  apply BitVec.eq_of_getLsbD_eq
  intro i hi
  simp only [BitVec.getLsbD_extractLsb', BitVec.getLsbD_append]
  grind

@[simp] theorem regOf_regField (r : Reg) : regOf (regField r) = r := by
  simp only [regOf, regField, Fin.ext_iff, BitVec.toNat_ofNat]
  omega

@[simp] theorem regField_regOf (x : BitVec 4) : regField (regOf x) = x := by
  simp [regOf, regField]

/-- The decoder accepts exactly the words whose fields are those of a well-formed command. -/
theorem decode_eq_ok {c : Config} {x : Word} {i : Instr} :
    decode c x = .ok i ↔
      instrOf (fieldsOf x) = some i ∧ fieldsOf x = i.fields ∧ i.wellFormed c = true := by
  simp only [decode]
  cases h : instrOf (fieldsOf x) with
  | none => simp
  | some j =>
    by_cases hf : fieldsOf x = j.fields <;> by_cases hw : j.wellFormed c = true <;>
      simp only [hf, hw] <;> grind

end Sys2Proof
end

