-- ==== Sys2Proof/Laws/State.lean ====
section
/-! SUPPORT. What each field of the state is after each shared update: one simp lemma per field per update,
so that no proof unfolds a record update. -/

namespace Sys2Proof.Machine

/-! ## writeV -/

@[simp] theorem writeV_cfg (s : State) (r : Reg) (v : Vec) :
    (s.writeV r v).cfg = s.cfg := rfl
@[simp] theorem writeV_vectors (s : State) (r : Reg) (v : Vec) :
    (s.writeV r v).vectors = s.vectors.write r v := rfl
@[simp] theorem writeV_ie (s : State) (r : Reg) (v : Vec) :
    (s.writeV r v).ie = s.ie := rfl
@[simp] theorem writeV_busy (s : State) (r : Reg) (v : Vec) :
    (s.writeV r v).busy = s.busy := rfl
@[simp] theorem writeV_done (s : State) (r : Reg) (v : Vec) :
    (s.writeV r v).done = s.done := rfl
@[simp] theorem writeV_eq (s : State) (r : Reg) (v : Vec) :
    (s.writeV r v).eq = s.eq := rfl
@[simp] theorem writeV_lt (s : State) (r : Reg) (v : Vec) :
    (s.writeV r v).lt = s.lt := rfl
@[simp] theorem writeV_gt (s : State) (r : Reg) (v : Vec) :
    (s.writeV r v).gt = s.gt := rfl
@[simp] theorem writeV_noinv (s : State) (r : Reg) (v : Vec) :
    (s.writeV r v).noinv = s.noinv := rfl
@[simp] theorem writeV_err (s : State) (r : Reg) (v : Vec) :
    (s.writeV r v).err = s.err := rfl
@[simp] theorem writeV_ovr (s : State) (r : Reg) (v : Vec) :
    (s.writeV r v).ovr = s.ovr := rfl
@[simp] theorem writeV_ecode (s : State) (r : Reg) (v : Vec) :
    (s.writeV r v).ecode = s.ecode := rfl
@[simp] theorem writeV_arg (s : State) (r : Reg) (v : Vec) :
    (s.writeV r v).arg = s.arg := rfl
@[simp] theorem writeV_data (s : State) (r : Reg) (v : Vec) :
    (s.writeV r v).data = s.data := rfl
@[simp] theorem writeV_result (s : State) (r : Reg) (v : Vec) :
    (s.writeV r v).result = s.result := rfl
@[simp] theorem writeV_lcmd (s : State) (r : Reg) (v : Vec) :
    (s.writeV r v).lcmd = s.lcmd := rfl
@[simp] theorem writeV_larg (s : State) (r : Reg) (v : Vec) :
    (s.writeV r v).larg = s.larg := rfl
@[simp] theorem writeV_ldata (s : State) (r : Reg) (v : Vec) :
    (s.writeV r v).ldata = s.ldata := rfl
@[simp] theorem writeV_rst (s : State) (r : Reg) (v : Vec) :
    (s.writeV r v).rst = s.rst := rfl
@[simp] theorem writeV_inputs (s : State) (r : Reg) (v : Vec) :
    (s.writeV r v).inputs = s.inputs := rfl
@[simp] theorem writeV_response (s : State) (r : Reg) (v : Vec) :
    (s.writeV r v).response = s.response := rfl

/-! ## writeResult -/

@[simp] theorem writeResult_cfg (s : State) (x : Nat) :
    (s.writeResult x).cfg = s.cfg := rfl
@[simp] theorem writeResult_vectors (s : State) (x : Nat) :
    (s.writeResult x).vectors = s.vectors := rfl
@[simp] theorem writeResult_ie (s : State) (x : Nat) :
    (s.writeResult x).ie = s.ie := rfl
@[simp] theorem writeResult_busy (s : State) (x : Nat) :
    (s.writeResult x).busy = s.busy := rfl
@[simp] theorem writeResult_done (s : State) (x : Nat) :
    (s.writeResult x).done = s.done := rfl
@[simp] theorem writeResult_eq (s : State) (x : Nat) :
    (s.writeResult x).eq = s.eq := rfl
@[simp] theorem writeResult_lt (s : State) (x : Nat) :
    (s.writeResult x).lt = s.lt := rfl
@[simp] theorem writeResult_gt (s : State) (x : Nat) :
    (s.writeResult x).gt = s.gt := rfl
@[simp] theorem writeResult_noinv (s : State) (x : Nat) :
    (s.writeResult x).noinv = s.noinv := rfl
@[simp] theorem writeResult_err (s : State) (x : Nat) :
    (s.writeResult x).err = s.err := rfl
@[simp] theorem writeResult_ovr (s : State) (x : Nat) :
    (s.writeResult x).ovr = s.ovr := rfl
@[simp] theorem writeResult_ecode (s : State) (x : Nat) :
    (s.writeResult x).ecode = s.ecode := rfl
@[simp] theorem writeResult_arg (s : State) (x : Nat) :
    (s.writeResult x).arg = s.arg := rfl
@[simp] theorem writeResult_data (s : State) (x : Nat) :
    (s.writeResult x).data = s.data := rfl
@[simp] theorem writeResult_result (s : State) (x : Nat) :
    (s.writeResult x).result = BitVec.ofNat 32 x := rfl
@[simp] theorem writeResult_lcmd (s : State) (x : Nat) :
    (s.writeResult x).lcmd = s.lcmd := rfl
@[simp] theorem writeResult_larg (s : State) (x : Nat) :
    (s.writeResult x).larg = s.larg := rfl
@[simp] theorem writeResult_ldata (s : State) (x : Nat) :
    (s.writeResult x).ldata = s.ldata := rfl
@[simp] theorem writeResult_rst (s : State) (x : Nat) :
    (s.writeResult x).rst = s.rst := rfl
@[simp] theorem writeResult_inputs (s : State) (x : Nat) :
    (s.writeResult x).inputs = s.inputs := rfl
@[simp] theorem writeResult_response (s : State) (x : Nat) :
    (s.writeResult x).response = s.response := rfl

/-! ## compareFlags -/

@[simp] theorem compareFlags_cfg (a b : Vec) (s : State) :
    (compareFlags a b s).cfg = s.cfg := rfl
@[simp] theorem compareFlags_vectors (a b : Vec) (s : State) :
    (compareFlags a b s).vectors = s.vectors := rfl
@[simp] theorem compareFlags_ie (a b : Vec) (s : State) :
    (compareFlags a b s).ie = s.ie := rfl
@[simp] theorem compareFlags_busy (a b : Vec) (s : State) :
    (compareFlags a b s).busy = s.busy := rfl
@[simp] theorem compareFlags_done (a b : Vec) (s : State) :
    (compareFlags a b s).done = s.done := rfl
@[simp] theorem compareFlags_eq (a b : Vec) (s : State) :
    (compareFlags a b s).eq = decide (a.len = b.len ∧ a.val = b.val) := rfl
@[simp] theorem compareFlags_lt (a b : Vec) (s : State) :
    (compareFlags a b s).lt = decide (a.val < b.val) := rfl
@[simp] theorem compareFlags_gt (a b : Vec) (s : State) :
    (compareFlags a b s).gt = decide (b.val < a.val) := rfl
@[simp] theorem compareFlags_noinv (a b : Vec) (s : State) :
    (compareFlags a b s).noinv = s.noinv := rfl
@[simp] theorem compareFlags_err (a b : Vec) (s : State) :
    (compareFlags a b s).err = s.err := rfl
@[simp] theorem compareFlags_ovr (a b : Vec) (s : State) :
    (compareFlags a b s).ovr = s.ovr := rfl
@[simp] theorem compareFlags_ecode (a b : Vec) (s : State) :
    (compareFlags a b s).ecode = s.ecode := rfl
@[simp] theorem compareFlags_arg (a b : Vec) (s : State) :
    (compareFlags a b s).arg = s.arg := rfl
@[simp] theorem compareFlags_data (a b : Vec) (s : State) :
    (compareFlags a b s).data = s.data := rfl
@[simp] theorem compareFlags_result (a b : Vec) (s : State) :
    (compareFlags a b s).result = s.result := rfl
@[simp] theorem compareFlags_lcmd (a b : Vec) (s : State) :
    (compareFlags a b s).lcmd = s.lcmd := rfl
@[simp] theorem compareFlags_larg (a b : Vec) (s : State) :
    (compareFlags a b s).larg = s.larg := rfl
@[simp] theorem compareFlags_ldata (a b : Vec) (s : State) :
    (compareFlags a b s).ldata = s.ldata := rfl
@[simp] theorem compareFlags_rst (a b : Vec) (s : State) :
    (compareFlags a b s).rst = s.rst := rfl
@[simp] theorem compareFlags_inputs (a b : Vec) (s : State) :
    (compareFlags a b s).inputs = s.inputs := rfl
@[simp] theorem compareFlags_response (a b : Vec) (s : State) :
    (compareFlags a b s).response = s.response := rfl

/-! ## completed -/

@[simp] theorem completed_cfg (s : State) :
    (s.completed).cfg = s.cfg := rfl
@[simp] theorem completed_vectors (s : State) :
    (s.completed).vectors = s.vectors := rfl
@[simp] theorem completed_ie (s : State) :
    (s.completed).ie = s.ie := rfl
@[simp] theorem completed_busy (s : State) :
    (s.completed).busy = false := rfl
@[simp] theorem completed_done (s : State) :
    (s.completed).done = true := rfl
@[simp] theorem completed_eq (s : State) :
    (s.completed).eq = s.eq := rfl
@[simp] theorem completed_lt (s : State) :
    (s.completed).lt = s.lt := rfl
@[simp] theorem completed_gt (s : State) :
    (s.completed).gt = s.gt := rfl
@[simp] theorem completed_noinv (s : State) :
    (s.completed).noinv = s.noinv := rfl
@[simp] theorem completed_err (s : State) :
    (s.completed).err = s.err := rfl
@[simp] theorem completed_ovr (s : State) :
    (s.completed).ovr = s.ovr := rfl
@[simp] theorem completed_ecode (s : State) :
    (s.completed).ecode = .ok := rfl
@[simp] theorem completed_arg (s : State) :
    (s.completed).arg = s.arg := rfl
@[simp] theorem completed_data (s : State) :
    (s.completed).data = s.data := rfl
@[simp] theorem completed_result (s : State) :
    (s.completed).result = s.result := rfl
@[simp] theorem completed_lcmd (s : State) :
    (s.completed).lcmd = s.lcmd := rfl
@[simp] theorem completed_larg (s : State) :
    (s.completed).larg = s.larg := rfl
@[simp] theorem completed_ldata (s : State) :
    (s.completed).ldata = s.ldata := rfl
@[simp] theorem completed_rst (s : State) :
    (s.completed).rst = s.rst := rfl
@[simp] theorem completed_inputs (s : State) :
    (s.completed).inputs = s.inputs := rfl
@[simp] theorem completed_response (s : State) :
    (s.completed).response = s.response := rfl

/-! ## raised -/

@[simp] theorem raised_cfg (s : State) (e : ErrorCode) :
    (s.raised e).cfg = s.cfg := rfl
@[simp] theorem raised_vectors (s : State) (e : ErrorCode) :
    (s.raised e).vectors = s.vectors := rfl
@[simp] theorem raised_ie (s : State) (e : ErrorCode) :
    (s.raised e).ie = s.ie := rfl
@[simp] theorem raised_busy (s : State) (e : ErrorCode) :
    (s.raised e).busy = false := rfl
@[simp] theorem raised_done (s : State) (e : ErrorCode) :
    (s.raised e).done = true := rfl
@[simp] theorem raised_eq (s : State) (e : ErrorCode) :
    (s.raised e).eq = s.eq := rfl
@[simp] theorem raised_lt (s : State) (e : ErrorCode) :
    (s.raised e).lt = s.lt := rfl
@[simp] theorem raised_gt (s : State) (e : ErrorCode) :
    (s.raised e).gt = s.gt := rfl
@[simp] theorem raised_noinv (s : State) (e : ErrorCode) :
    (s.raised e).noinv = s.noinv := rfl
@[simp] theorem raised_err (s : State) (e : ErrorCode) :
    (s.raised e).err = true := rfl
@[simp] theorem raised_ovr (s : State) (e : ErrorCode) :
    (s.raised e).ovr = s.ovr := rfl
@[simp] theorem raised_ecode (s : State) (e : ErrorCode) :
    (s.raised e).ecode = e := rfl
@[simp] theorem raised_arg (s : State) (e : ErrorCode) :
    (s.raised e).arg = s.arg := rfl
@[simp] theorem raised_data (s : State) (e : ErrorCode) :
    (s.raised e).data = s.data := rfl
@[simp] theorem raised_result (s : State) (e : ErrorCode) :
    (s.raised e).result = s.result := rfl
@[simp] theorem raised_lcmd (s : State) (e : ErrorCode) :
    (s.raised e).lcmd = s.lcmd := rfl
@[simp] theorem raised_larg (s : State) (e : ErrorCode) :
    (s.raised e).larg = s.larg := rfl
@[simp] theorem raised_ldata (s : State) (e : ErrorCode) :
    (s.raised e).ldata = s.ldata := rfl
@[simp] theorem raised_rst (s : State) (e : ErrorCode) :
    (s.raised e).rst = s.rst := rfl
@[simp] theorem raised_inputs (s : State) (e : ErrorCode) :
    (s.raised e).inputs = s.inputs := rfl
@[simp] theorem raised_response (s : State) (e : ErrorCode) :
    (s.raised e).response = s.response := rfl

/-! ## acceptCommand -/

@[simp] theorem acceptCommand_cfg (x : Word) (s : State) :
    (acceptCommand x s).cfg = s.cfg := rfl
@[simp] theorem acceptCommand_vectors (x : Word) (s : State) :
    (acceptCommand x s).vectors = s.vectors := rfl
@[simp] theorem acceptCommand_ie (x : Word) (s : State) :
    (acceptCommand x s).ie = s.ie := rfl
@[simp] theorem acceptCommand_busy (x : Word) (s : State) :
    (acceptCommand x s).busy = true := rfl
@[simp] theorem acceptCommand_done (x : Word) (s : State) :
    (acceptCommand x s).done = false := rfl
@[simp] theorem acceptCommand_eq (x : Word) (s : State) :
    (acceptCommand x s).eq = s.eq := rfl
@[simp] theorem acceptCommand_lt (x : Word) (s : State) :
    (acceptCommand x s).lt = s.lt := rfl
@[simp] theorem acceptCommand_gt (x : Word) (s : State) :
    (acceptCommand x s).gt = s.gt := rfl
@[simp] theorem acceptCommand_noinv (x : Word) (s : State) :
    (acceptCommand x s).noinv = s.noinv := rfl
@[simp] theorem acceptCommand_err (x : Word) (s : State) :
    (acceptCommand x s).err = s.err := rfl
@[simp] theorem acceptCommand_ovr (x : Word) (s : State) :
    (acceptCommand x s).ovr = s.ovr := rfl
@[simp] theorem acceptCommand_ecode (x : Word) (s : State) :
    (acceptCommand x s).ecode = s.ecode := rfl
@[simp] theorem acceptCommand_arg (x : Word) (s : State) :
    (acceptCommand x s).arg = s.arg := rfl
@[simp] theorem acceptCommand_data (x : Word) (s : State) :
    (acceptCommand x s).data = s.data := rfl
@[simp] theorem acceptCommand_result (x : Word) (s : State) :
    (acceptCommand x s).result = s.result := rfl
@[simp] theorem acceptCommand_lcmd (x : Word) (s : State) :
    (acceptCommand x s).lcmd = x := rfl
@[simp] theorem acceptCommand_larg (x : Word) (s : State) :
    (acceptCommand x s).larg = s.arg := rfl
@[simp] theorem acceptCommand_ldata (x : Word) (s : State) :
    (acceptCommand x s).ldata = s.data := rfl
@[simp] theorem acceptCommand_rst (x : Word) (s : State) :
    (acceptCommand x s).rst = s.rst := rfl
@[simp] theorem acceptCommand_inputs (x : Word) (s : State) :
    (acceptCommand x s).inputs = s.inputs := rfl
@[simp] theorem acceptCommand_response (x : Word) (s : State) :
    (acceptCommand x s).response = s.response := rfl

/-! ## clearStatus -/

@[simp] theorem clearStatus_cfg (x : Word) (s : State) :
    (clearStatus x s).cfg = s.cfg := rfl
@[simp] theorem clearStatus_vectors (x : Word) (s : State) :
    (clearStatus x s).vectors = s.vectors := rfl
@[simp] theorem clearStatus_ie (x : Word) (s : State) :
    (clearStatus x s).ie = s.ie := rfl
@[simp] theorem clearStatus_busy (x : Word) (s : State) :
    (clearStatus x s).busy = s.busy := rfl
@[simp] theorem clearStatus_done (x : Word) (s : State) :
    (clearStatus x s).done = (s.done && !x.getLsbD 1) := rfl
@[simp] theorem clearStatus_eq (x : Word) (s : State) :
    (clearStatus x s).eq = s.eq := rfl
@[simp] theorem clearStatus_lt (x : Word) (s : State) :
    (clearStatus x s).lt = s.lt := rfl
@[simp] theorem clearStatus_gt (x : Word) (s : State) :
    (clearStatus x s).gt = s.gt := rfl
@[simp] theorem clearStatus_noinv (x : Word) (s : State) :
    (clearStatus x s).noinv = s.noinv := rfl
@[simp] theorem clearStatus_err (x : Word) (s : State) :
    (clearStatus x s).err = (s.err && !x.getLsbD 6) := rfl
@[simp] theorem clearStatus_ovr (x : Word) (s : State) :
    (clearStatus x s).ovr = (s.ovr && !x.getLsbD 7) := rfl
@[simp] theorem clearStatus_ecode (x : Word) (s : State) :
    (clearStatus x s).ecode = s.ecode := rfl
@[simp] theorem clearStatus_arg (x : Word) (s : State) :
    (clearStatus x s).arg = s.arg := rfl
@[simp] theorem clearStatus_data (x : Word) (s : State) :
    (clearStatus x s).data = s.data := rfl
@[simp] theorem clearStatus_result (x : Word) (s : State) :
    (clearStatus x s).result = s.result := rfl
@[simp] theorem clearStatus_lcmd (x : Word) (s : State) :
    (clearStatus x s).lcmd = s.lcmd := rfl
@[simp] theorem clearStatus_larg (x : Word) (s : State) :
    (clearStatus x s).larg = s.larg := rfl
@[simp] theorem clearStatus_ldata (x : Word) (s : State) :
    (clearStatus x s).ldata = s.ldata := rfl
@[simp] theorem clearStatus_rst (x : Word) (s : State) :
    (clearStatus x s).rst = s.rst := rfl
@[simp] theorem clearStatus_inputs (x : Word) (s : State) :
    (clearStatus x s).inputs = s.inputs := rfl
@[simp] theorem clearStatus_response (x : Word) (s : State) :
    (clearStatus x s).response = s.response := rfl

/-! ## readV under the updates that leave the storage alone -/

@[simp] theorem readV_writeResult (s : State) (x : Nat) (q : Reg) :
    (s.writeResult x).readV q = s.readV q := rfl
@[simp] theorem readV_compareFlags (a b : Vec) (s : State) (q : Reg) :
    (compareFlags a b s).readV q = s.readV q := rfl
@[simp] theorem readV_completed (s : State) (q : Reg) :
    (s.completed).readV q = s.readV q := rfl
@[simp] theorem readV_raised (s : State) (e : ErrorCode) (q : Reg) :
    (s.raised e).readV q = s.readV q := rfl
@[simp] theorem readV_acceptCommand (x : Word) (s : State) (q : Reg) :
    (acceptCommand x s).readV q = s.readV q := rfl
@[simp] theorem readV_clearStatus (x : Word) (s : State) (q : Reg) :
    (clearStatus x s).readV q = s.readV q := rfl

/-! ## readV and writeV -/

theorem read_write (m : Memory) (r q : Reg) (v : Vec) :
    (m.write r v).read q = if q = r then v else m.read q := by
  simp [Memory.read, Memory.write, Vector.getElem_set, Fin.ext_iff, eq_comm]

theorem readV_writeV (s : State) (r q : Reg) (v : Vec) :
    (s.writeV r v).readV q = if q = r then v else s.readV q :=
  read_write s.vectors r q v

@[simp] theorem readV_writeV_same (s : State) (r : Reg) (v : Vec) :
    (s.writeV r v).readV r = v := by simp [readV_writeV]

@[simp] theorem readV_writeV_ne (s : State) (r q : Reg) (v : Vec) (h : q ≠ r) :
    (s.writeV r v).readV q = s.readV q := by simp [readV_writeV, h]

@[simp] theorem argU_writeV (s : State) (r : Reg) (v : Vec) :
    argU (s.writeV r v) = argU s := rfl
@[simp] theorem argS_writeV (s : State) (r : Reg) (v : Vec) :
    argS (s.writeV r v) = argS s := rfl
@[simp] theorem argU_completed (s : State) : argU s.completed = argU s := rfl
@[simp] theorem argS_completed (s : State) : argS s.completed = argS s := rfl

end Sys2Proof.Machine
end

