-- ==== Sys2Proof/Laws/Ops.lean ====
section
/-! SUPPORT. What each shared operation can do, said once: how a command ends, acceptance, reset, and that
every operation keeps the vector storage in canonical form. -/

namespace Sys2Proof.Machine

/-! ## Ends of a command -/

theorem complete_eq_next (s t : State) : complete s = .next t ↔ t = s.completed := by
  simp [complete, eq_comm]

theorem raise_eq_next (e : ErrorCode) (s t : State) : raise e s = .next t ↔ t = s.raised e := by
  simp [raise, eq_comm]

theorem raised_isRaisedError (e : ErrorCode) (s : State) : RaisedError e s (s.raised e) := rfl

theorem completed_completedOk (s t : State) (h : t.err = s.err) : CompletedOk s t.completed :=
  ⟨rfl, h, rfl, rfl⟩

/-- A command that writes one vector register and completes. -/
theorem writeV_completed_wroteOnly (s : State) (r : Reg) (v : Vec) :
    WroteOnlyVectors [r] s (s.writeV r v).completed := by
  refine ⟨⟨rfl, rfl, rfl, rfl⟩, fun q hq => ?_, ⟨rfl, rfl, rfl⟩, rfl, rfl, by simp [SameHostSide]⟩
  simp only [List.mem_singleton] at hq
  simp [hq]

/-- A command that writes RESULT and completes. -/
theorem writeResult_completed_wroteOnly (s : State) (x : Nat) :
    WroteOnlyResult s (s.writeResult x).completed :=
  ⟨⟨rfl, rfl, rfl, rfl⟩, fun _ _ => rfl, ⟨rfl, rfl, rfl⟩, rfl, by simp [SameHostSide]⟩

/-! ## Acceptance -/

/-- An offered command is discarded with OVR while one is pending, and accepted otherwise (R47). -/
theorem offerCommand_cases (x : Word) (s : State) :
    (s.busy = true ∧ offerCommand x s = { s with ovr := true }) ∨
      (s.busy = false ∧ offerCommand x s = acceptCommand x s) := by
  cases h : s.busy <;> simp [offerCommand, h]

/-! ## The vector storage -/

theorem empty_wf (c : Config) : Vec.empty.wf c := ⟨Nat.zero_le _, by simp [Vec.empty]⟩

theorem replicate_empty_wf (c : Config) : Memory.wf c (Vector.replicate 16 Vec.empty) :=
  fun r => ⟨by simpa using empty_wf c, by simp⟩

/-- The only operation that changes the storage keeps its canonical form. -/
theorem write_wf {c : Config} {m : Memory} {r : Reg} {v : Vec} (hm : Memory.wf c m)
    (hv : v.wf c) (hr : r.val < c.nv) : Memory.wf c (m.write r v) := by
  intro q
  have h := read_write m r q v
  simp only [Memory.read] at h
  rw [h]
  split
  · next e => subst e; exact ⟨hv, fun hq => absurd hr (by omega)⟩
  · exact hm q

theorem readV_wf {s : State} (h : Memory.wf s.cfg s.vectors) (r : Reg) : (s.readV r).wf s.cfg :=
  (h r).1

/-! ## Reset -/

theorem resetOf_vectors_wf (c : Config) : Memory.wf c (State.resetOf c).vectors :=
  replicate_empty_wf c

@[simp] theorem readV_resetOf (c : Config) (r : Reg) : (State.resetOf c).readV r = Vec.empty := by
  simp [State.readV, Memory.read, State.resetOf]

end Sys2Proof.Machine
end

