-- ==== Sys2Proof/Laws/Operands.lean ====
section
/-! SUPPORT. What each operand view and each shift says bit by bit, and that each keeps a value below
2^len. -/

namespace Sys2Proof.Machine

/-! ## Signed indices (R12) -/

theorem resolveIndex_eq_none (len : Nat) (i : Int) :
    resolveIndex len i = none ↔ i < -(len : Int) ∨ (len : Int) ≤ i := by
  simp only [resolveIndex]; split <;> simp_all

theorem resolveIndex_eq_some (len : Nat) (i : Int) (p : Nat) :
    resolveIndex len i = some p ↔
      p < len ∧ ((p : Int) = i ∨ (i < 0 ∧ (p : Int) = (len : Int) + i)) := by
  simp only [resolveIndex]
  split <;> [simp; (simp only [Option.some.injEq]; split)] <;> omega

/-! ## Single bits -/

theorem testBit_putBit (x k : Nat) (b : Bool) (i : Nat) :
    (putBit x k b).testBit i = if i = k then b else x.testBit i := by
  have h1 : (1 <<< k : Nat).testBit i = decide (i = k) := by
    rw [Nat.one_shiftLeft, Nat.testBit_two_pow]; simp [eq_comm]
  have h2 : (b.toNat <<< k).testBit i = (decide (i = k) && b) := by
    cases b <;> simp [h1]
  simp only [putBit, Nat.testBit_or, Nat.testBit_xor, Nat.testBit_and, h1, h2]
  by_cases h : i = k <;> simp [h]

theorem lt_two_pow_of_testBit_false {x n : Nat} (h : ∀ i, n ≤ i → x.testBit i = false) :
    x < 2 ^ n := Nat.lt_pow_two_of_testBit x h

theorem testBit_false_of_lt {x n i : Nat} (h : x < 2 ^ n) (hi : n ≤ i) : x.testBit i = false :=
  Nat.testBit_lt_two_pow (lt_of_lt_of_le h (Nat.pow_le_pow_right (by omega) hi))

theorem putBit_lt {x n k : Nat} (b : Bool) (h : x < 2 ^ n) (hk : k < n) : putBit x k b < 2 ^ n := by
  refine lt_two_pow_of_testBit_false fun i hi => ?_
  rw [testBit_putBit, if_neg (by omega)]
  exact testBit_false_of_lt h hi

@[simp] theorem setBit_len (v : Vec) (p : Nat) (b : Bool) : (v.setBit p b).len = v.len := rfl

theorem bit_setBit {v : Vec} {p q : Nat} (b : Bool) (hp : p < v.len) (hq : q < v.len) :
    (v.setBit p b).bit q = if q = p then b else v.bit q := by
  simp only [Vec.bit, Vec.setBit, testBit_putBit]
  by_cases h : q = p
  · simp [h]
  · rw [if_neg (by omega), if_neg h]

theorem setBit_wf {c : Config} {v : Vec} {p : Nat} (b : Bool) (h : v.wf c) (hp : p < v.len) :
    (v.setBit p b).wf c := ⟨h.1, putBit_lt b h.2 (by simp only [Vec.setBit]; omega)⟩

/-- A vector in canonical form is given by its length and its bits. -/
theorem vec_ext_bits {u v : Vec} (hl : u.len = v.len) (hu : u.val < 2 ^ u.len)
    (hv : v.val < 2 ^ v.len) (h : ∀ p, p < v.len → u.bit p = v.bit p) : u = v := by
  cases u; cases v
  simp only at hl hu hv
  subst hl
  simp only [Vec.mk.injEq, true_and]
  refine Nat.eq_of_testBit_eq fun i => ?_
  simp only [Vec.bit] at h
  rename_i L x y
  by_cases hi : i < L
  · have := h (L - 1 - i) (by omega)
    rwa [show L - 1 - (L - 1 - i) = i by omega] at this
  · rw [testBit_false_of_lt hu (by omega), testBit_false_of_lt hv (by omega)]

/-! ## Storage words -/

theorem testBit_wordBits (w : Nat) (v : Vec) (k n j : Nat) :
    (Vec.wordBits w v k n).testBit j =
      (decide (j < n) && (decide (k * w + j < v.len) && v.bit (k * w + j))) := by
  induction n with
  | zero => simp [Vec.wordBits]
  | succ n ih =>
    have h2 : ((if k * w + n < v.len then (v.bit (k * w + n)).toNat else 0) <<< n).testBit j =
        (decide (j = n) && (decide (k * w + n < v.len) && v.bit (k * w + n))) := by
      split
      · next h => cases v.bit (k * w + n) <;> simp [Nat.one_shiftLeft, Nat.testBit_two_pow, h, eq_comm]
      · next h => simp [h]
    simp only [Vec.wordBits, Nat.testBit_or, ih, h2]
    by_cases e : j = n
    · subst e; simp
    · have : decide (j < n + 1) = decide (j < n) := decide_eq_decide.2 (by omega)
      rw [this]
      simp [e]

theorem testBit_wordRead (w : Nat) (v : Vec) (k j : Nat) :
    (v.wordRead w k).testBit j =
      (decide (j < w) && (decide (k * w + j < v.len) && v.bit (k * w + j))) :=
  testBit_wordBits w v k w j

theorem wordRead_lt (w : Nat) (v : Vec) (k : Nat) : v.wordRead w k < 2 ^ w :=
  lt_two_pow_of_testBit_false fun i hi => by
    rw [testBit_wordRead, decide_eq_false (by omega), Bool.false_and]

@[simp] theorem putWordBits_len (w : Nat) (v : Vec) (k d n : Nat) :
    (Vec.putWordBits w v k d n).len = v.len := by
  induction n with
  | zero => rfl
  | succ n ih => simp only [Vec.putWordBits]; split <;> simp [ih]

theorem bit_putWordBits (w : Nat) (v : Vec) (k d n q : Nat) (hq : q < v.len) :
    (Vec.putWordBits w v k d n).bit q =
      if k * w ≤ q ∧ q < k * w + n then d.testBit (q - k * w) else v.bit q := by
  induction n with
  | zero => simp only [Vec.putWordBits]; rw [if_neg (by omega)]
  | succ n ih =>
    simp only [Vec.putWordBits]
    split
    · next h =>
      rw [bit_setBit _ (by simpa using h) (by simpa using hq), ih]
      by_cases e : q = k * w + n
      · subst e; simp
      · rw [if_neg e]; congr 1; simp only [eq_iff_iff]; omega
    · next h => rw [ih]; congr 1; simp only [eq_iff_iff]; omega

theorem putWordBits_wf {c : Config} {v : Vec} (w k d n : Nat) (h : v.wf c) :
    (Vec.putWordBits w v k d n).wf c := by
  induction n with
  | zero => exact h
  | succ n ih =>
    simp only [Vec.putWordBits]
    split
    · next hk => exact setBit_wf _ ih (by simpa using hk)
    · exact ih

@[simp] theorem wordWrite_len (w : Nat) (v : Vec) (k d : Nat) : (v.wordWrite w k d).len = v.len :=
  putWordBits_len w v k d w

theorem bit_wordWrite (w : Nat) (v : Vec) (k d q : Nat) (hq : q < v.len) :
    (v.wordWrite w k d).bit q =
      if k * w ≤ q ∧ q < k * w + w then d.testBit (q - k * w) else v.bit q :=
  bit_putWordBits w v k d w q hq

theorem wordWrite_wf {c : Config} {v : Vec} (w k d : Nat) (h : v.wf c) : (v.wordWrite w k d).wf c :=
  putWordBits_wf w k d w h

/-- `k < ceil(len / W)` exactly when storage word `k` holds a position (R11). -/
theorem lt_nwords {w : Nat} (hw : 0 < w) (v : Vec) (k : Nat) :
    k < v.nwords w ↔ k * w < v.len := by
  simp only [Vec.nwords]
  rw [Nat.lt_div_iff_mul_lt hw]
  omega

/-! ## Bytes -/

theorem testBit_byteRead (v : Vec) (b j : Nat) :
    (v.byteRead b).testBit j = (decide (j < 8) && v.val.testBit (v.len - 8 * b - 8 + j)) := by
  have : (0xFF : Nat) = 2 ^ 8 - 1 := rfl
  simp only [Vec.byteRead, Nat.testBit_and, Nat.testBit_shiftRight, this, Nat.testBit_two_pow_sub_one]
  rw [Bool.and_comm]

theorem byteRead_lt (v : Vec) (b : Nat) : v.byteRead b < 256 := by
  have : v.byteRead b ≤ 0xFF := Nat.and_le_right
  omega

/-! ## Masks and shifts -/

theorem testBit_mask (n i : Nat) : (mask n).testBit i = decide (i < n) :=
  Nat.testBit_two_pow_sub_one n i

theorem mask_lt (n : Nat) : mask n < 2 ^ n := by
  have := Nat.two_pow_pos n
  simp only [mask]; omega

theorem and_mask_lt (x n : Nat) : x &&& mask n < 2 ^ n :=
  lt_of_le_of_lt Nat.and_le_right (mask_lt n)

theorem rotateLeft_lt (len x n : Nat) : rotateLeft len x n < 2 ^ len := and_mask_lt _ _
theorem rotateRight_lt (len x n : Nat) : rotateRight len x n < 2 ^ len := and_mask_lt _ _
theorem shiftLeft_lt (len x n : Nat) : shiftLeft len x n < 2 ^ len := by
  simp only [shiftLeft]; split
  · exact Nat.two_pow_pos len
  · exact and_mask_lt _ _
theorem shiftRight_lt {len x : Nat} (n : Nat) (h : x < 2 ^ len) : shiftRight len x n < 2 ^ len :=
  lt_of_le_of_lt (Nat.shiftRight_le x n) h

/-- `shiftLeft` is the closed form of R183. -/
theorem shiftLeft_eq (len x n : Nat) : shiftLeft len x n = (x <<< n) &&& mask len := by
  simp only [shiftLeft]; split
  · next h =>
    refine (Nat.eq_of_testBit_eq fun i => ?_).symm
    simp only [Nat.testBit_and, Nat.testBit_shiftLeft, testBit_mask, Nat.zero_testBit]
    by_cases hi : i < len <;> simp [hi]; intro; omega
  · rfl

/-! ## Shifts by logical position (R181 to R184) -/

theorem bit_rotateLeft {len x p : Nat} (n : Nat) (hx : x < 2 ^ len) (hp : p < len) :
    (Vec.mk len (rotateLeft len x n)).bit p = (Vec.mk len x).bit ((p + n) % len) := by
  have hk : n % len < len := Nat.mod_lt _ (by omega)
  rw [Nat.add_mod, Nat.mod_eq_of_lt hp]
  simp only [Vec.bit, rotateLeft, Nat.testBit_and, Nat.testBit_or, Nat.testBit_shiftLeft,
    Nat.testBit_shiftRight, testBit_mask]
  generalize n % len = k at *
  by_cases h : p + k < len
  · rw [Nat.mod_eq_of_lt h, testBit_false_of_lt hx (i := len - k + (len - 1 - p)) (by omega),
      decide_eq_true (by omega : len - 1 - p ≥ k), decide_eq_true (by omega : len - 1 - p < len)]
    simp only [Bool.true_and, Bool.or_false, Bool.and_true]
    congr 1; omega
  · rw [Nat.mod_eq_sub_mod (by omega), Nat.mod_eq_of_lt (by omega),
      decide_eq_false (by omega : ¬ len - 1 - p ≥ k), decide_eq_true (by omega : len - 1 - p < len)]
    simp only [Bool.false_and, Bool.false_or, Bool.and_true]
    congr 1; omega

theorem bit_rotateRight {len x p : Nat} (n : Nat) (hx : x < 2 ^ len) (hp : p < len) :
    (Vec.mk len (rotateRight len x n)).bit p =
      (Vec.mk len x).bit ((p + (len - n % len)) % len) := by
  have hk : n % len < len := Nat.mod_lt _ (by omega)
  simp only [Vec.bit, rotateRight, Nat.testBit_and, Nat.testBit_or, Nat.testBit_shiftLeft,
    Nat.testBit_shiftRight, testBit_mask]
  generalize n % len = k at *
  by_cases h : p < k
  · rw [Nat.mod_eq_of_lt (by omega : p + (len - k) < len),
      testBit_false_of_lt hx (i := k + (len - 1 - p)) (by omega),
      decide_eq_true (by omega : len - 1 - p ≥ len - k),
      decide_eq_true (by omega : len - 1 - p < len)]
    simp only [Bool.true_and, Bool.false_or, Bool.and_true]
    congr 1; omega
  · rw [Nat.mod_eq_sub_mod (by omega : len ≤ p + (len - k)), Nat.mod_eq_of_lt (by omega),
      decide_eq_false (by omega : ¬ len - 1 - p ≥ len - k),
      decide_eq_true (by omega : len - 1 - p < len)]
    simp only [Bool.false_and, Bool.or_false, Bool.and_true]
    congr 1; omega

theorem bit_shiftLeft {len x p : Nat} (n : Nat) (hp : p < len) :
    (Vec.mk len (shiftLeft len x n)).bit p =
      (decide (p + n < len) && (Vec.mk len x).bit (p + n)) := by
  simp only [Vec.bit, shiftLeft_eq, Nat.testBit_and, Nat.testBit_shiftLeft, testBit_mask]
  rw [decide_eq_true (by omega : len - 1 - p < len), Bool.and_true]
  have : decide (len - 1 - p ≥ n) = decide (p + n < len) := decide_eq_decide.2 (by omega)
  rw [this, show len - 1 - p - n = len - 1 - (p + n) by omega]

theorem bit_shiftRight {len x p : Nat} (n : Nat) (hx : x < 2 ^ len) (hp : p < len) :
    (Vec.mk len (shiftRight len x n)).bit p =
      (decide (n ≤ p) && (Vec.mk len x).bit (p - n)) := by
  simp only [Vec.bit, shiftRight, Nat.testBit_shiftRight]
  by_cases h : n ≤ p
  · rw [decide_eq_true h, Bool.true_and]; congr 1; omega
  · rw [decide_eq_false h, Bool.false_and, testBit_false_of_lt hx (by omega)]

end Sys2Proof.Machine
end

