-- ==== Sys2Proof/Laws/Encode.lean ====
section
/-! SUPPORT. The formula of R91 gives the word with those six fields. -/

namespace Sys2Proof.Machine

theorem commandWord_eq_assemble {op vd va vb vc imm : Nat} (h1 : op < 64) (h2 : vd < 16)
    (h3 : va < 16) (h4 : vb < 16) (h5 : vc < 16) (h6 : imm < 1024) :
    commandWord op vd va vb vc imm =
      assemble ⟨BitVec.ofNat 6 op, BitVec.ofNat 4 vd, BitVec.ofNat 4 va, BitVec.ofNat 4 vb,
        BitVec.ofNat 4 vc, BitVec.ofNat 10 imm⟩ := by
  have add : ∀ x y n : Nat, y < 2 ^ n → x <<< n ||| y = x * 2 ^ n + y := fun x y n h => by
    rw [← Nat.shiftLeft_add_eq_or_of_lt h, Nat.shiftLeft_eq]
  apply BitVec.eq_of_toNat_eq
  simp only [assemble, BitVec.toNat_append, BitVec.toNat_ofNat, commandWord]
  have t : ∀ {x n : Nat}, x < 2 ^ n → x % 2 ^ n = x := fun h => Nat.mod_eq_of_lt h
  rw [t (n := 6) h1, t (n := 4) h2, t (n := 4) h3, t (n := 4) h4, t (n := 4) h5, t (n := 10) h6]
  have e : op <<< 26 ||| vd <<< 22 ||| va <<< 18 ||| vb <<< 14 ||| vc <<< 10 ||| imm =
      ((((op <<< 4 ||| vd) <<< 4 ||| va) <<< 4 ||| vb) <<< 4 ||| vc) <<< 10 ||| imm := by
    simp only [Nat.shiftLeft_or_distrib, ← Nat.shiftLeft_add]
  rw [e, add _ _ 4 h2, add _ _ 4 h3, add _ _ 4 h4, add _ _ 4 h5, add _ _ 10 h6]
  exact Nat.mod_eq_of_lt (by omega)

end Sys2Proof.Machine
end

