-- ==== Sys2Proof/Laws/Poly.lean ====
section
/-! SUPPORT. Polynomials over GF(2) as naturals: the carry-free product is linear, commutative and
associative, division gives back the dividend and a reduced remainder, and extended Euclid carries a
Bezout coefficient. -/

namespace Sys2Proof.Machine

theorem deg_lt (x : Nat) : x < 2 ^ (deg x + 1) := Nat.lt_log2_self

theorem deg_eq_of_bounds {x n : Nat} (h1 : 2 ^ n ≤ x) (h2 : x < 2 ^ (n + 1)) : deg x = n := by
  have hx : x ≠ 0 := by have := Nat.two_pow_pos n; omega
  exact (Nat.log2_eq_iff hx).2 ⟨h1, h2⟩

theorem two_pow_deg_le {x : Nat} (h : x ≠ 0) : 2 ^ deg x ≤ x := Nat.log2_self_le h

theorem deg_lt_of_lt {x n : Nat} (h : x ≠ 0) (hx : x < 2 ^ n) : deg x < n :=
  (Nat.log2_lt h).2 hx

theorem xor_lt {x y n : Nat} (hx : x < 2 ^ n) (hy : y < 2 ^ n) : x ^^^ y < 2 ^ n :=
  Nat.xor_lt_two_pow hx hy

theorem shiftLeft_xor (x y k : Nat) : (x ^^^ y) <<< k = (x <<< k) ^^^ (y <<< k) :=
  Nat.shiftLeft_xor_distrib

/-- A value with top bit `k` is the rest with bit `k` added. -/
theorem xor_top {x k : Nat} (h1 : 2 ^ k ≤ x) (h2 : x < 2 ^ (k + 1)) :
    x ^^^ 2 ^ k < 2 ^ k := by
  refine Nat.lt_pow_two_of_testBit _ fun i hi => ?_
  rw [Nat.testBit_xor, Nat.testBit_two_pow]
  rcases Nat.eq_or_lt_of_le hi with rfl | hi
  · rw [Nat.testBit_of_two_pow_le_and_two_pow_add_one_gt h1 h2]; simp
  · rw [Nat.testBit_lt_two_pow (lt_of_lt_of_le h2 (Nat.pow_le_pow_right (by omega) hi))]
    simp; omega

/-- Every value is built from 0 by adding ever higher bits. -/
theorem xor_induction {P : Nat → Prop} (h0 : P 0)
    (hs : ∀ y k, y < 2 ^ k → P y → P (y ^^^ 2 ^ k)) : ∀ n, P n := by
  intro n
  induction n using Nat.strong_induction_on with
  | _ n ih =>
    by_cases hn : n = 0
    · subst hn; exact h0
    · have hlt := xor_top (two_pow_deg_le hn) (deg_lt n)
      have := hs (n ^^^ 2 ^ deg n) (deg n) hlt (ih _ (lt_of_lt_of_le hlt (two_pow_deg_le hn)))
      rwa [Nat.xor_xor_cancel_right] at this

/-! ## The carry-free product -/

/-- The product does not depend on the bound, once it is above every set bit of `y`. -/
theorem clmulBelow_of_lt {x y n : Nat} (h : y < 2 ^ n) : ∀ m, n ≤ m →
    clmulBelow x y m = clmulBelow x y n := by
  intro m hm
  induction m, hm using Nat.le_induction with
  | base => rfl
  | succ m hm ih =>
    have : y.testBit m = false := Nat.testBit_lt_two_pow (lt_of_lt_of_le h (Nat.pow_le_pow_right (by omega) hm))
    simp [clmulBelow, this, ih]

theorem clmul_eq_below {x y n : Nat} (h : y < 2 ^ n) : clmul x y = clmulBelow x y n := by
  rcases Nat.le_total n (deg y + 1) with hn | hn
  · exact clmulBelow_of_lt h _ hn
  · exact (clmulBelow_of_lt (deg_lt y) _ hn).symm

theorem clmulBelow_xor_left (x z y n : Nat) :
    clmulBelow (x ^^^ z) y n = clmulBelow x y n ^^^ clmulBelow z y n := by
  induction n with
  | zero => simp [clmulBelow]
  | succ n ih =>
    simp only [clmulBelow, ih]
    split
    · rw [shiftLeft_xor]; ac_rfl
    · simp

theorem clmulBelow_xor_right (x y z n : Nat) :
    clmulBelow x (y ^^^ z) n = clmulBelow x y n ^^^ clmulBelow x z n := by
  induction n with
  | zero => simp [clmulBelow]
  | succ n ih =>
    simp only [clmulBelow, ih, Nat.testBit_xor]
    cases y.testBit n <;> cases z.testBit n <;> simp
    all_goals first | ac_rfl | rw [Nat.xor_right_comm, Nat.xor_assoc, Nat.xor_xor_cancel_right]

theorem clmul_xor_left (x z y : Nat) : clmul (x ^^^ z) y = clmul x y ^^^ clmul z y :=
  clmulBelow_xor_left x z y _

theorem clmul_xor_right (x y z : Nat) : clmul x (y ^^^ z) = clmul x y ^^^ clmul x z := by
  obtain ⟨n, hy, hz⟩ : ∃ n, y < 2 ^ n ∧ z < 2 ^ n :=
    ⟨deg y + 1 + (deg z + 1), lt_of_lt_of_le (deg_lt y) (Nat.pow_le_pow_right (by omega) (by omega)),
      lt_of_lt_of_le (deg_lt z) (Nat.pow_le_pow_right (by omega) (by omega))⟩
  rw [clmul_eq_below hy, clmul_eq_below hz, clmul_eq_below (xor_lt hy hz), clmulBelow_xor_right]

/-- With no set bit in the second factor the bound does not matter, so neither does the value of `deg 0`. -/
@[simp] theorem clmulBelow_zero_right (x n : Nat) : clmulBelow x 0 n = 0 := by
  induction n with
  | zero => rfl
  | succ n ih => simp [clmulBelow, ih]

/-- Division of 0 makes no pass whatever the bound, so the value of `deg 0` does not matter. -/
@[simp] theorem pdivLoop_zero (m n q : Nat) : pdivLoop m n q 0 = (q, 0) := by
  cases n <;> simp [pdivLoop]

@[simp] theorem clmul_zero_right (x : Nat) : clmul x 0 = 0 := by simp [clmul, deg, clmulBelow]

@[simp] theorem clmul_zero_left (y : Nat) : clmul 0 y = 0 := by
  have : ∀ n, clmulBelow 0 y n = 0 := fun n => by
    induction n with
    | zero => rfl
    | succ n ih => simp [clmulBelow, ih]
  exact this _

theorem clmul_two_pow_right (x k : Nat) : clmul x (2 ^ k) = x <<< k := by
  have hb : ∀ n, n ≤ k → clmulBelow x (2 ^ k) n = 0 := fun n => by
    induction n with
    | zero => intro _; rfl
    | succ n ih =>
      intro hn
      simp [clmulBelow, ih (by omega), Nat.testBit_two_pow]
      omega
  rw [clmul_eq_below (Nat.pow_lt_pow_right (by omega) (Nat.lt_succ_self k))]
  simp [clmulBelow, hb]

theorem clmul_two_pow_left (k y : Nat) : clmul (2 ^ k) y = y <<< k := by
  induction y using xor_induction with
  | h0 => simp
  | hs y j _ ih =>
    rw [clmul_xor_right, ih, clmul_two_pow_right, shiftLeft_xor]
    simp [← Nat.one_shiftLeft, ← Nat.shiftLeft_add, Nat.add_comm]

theorem clmul_comm (x y : Nat) : clmul x y = clmul y x := by
  induction y using xor_induction with
  | h0 => simp
  | hs y k _ ih => rw [clmul_xor_right, clmul_xor_left, ih, clmul_two_pow_right, clmul_two_pow_left]

theorem clmul_shiftLeft (x y k : Nat) : clmul x (y <<< k) = clmul x y <<< k := by
  induction y using xor_induction with
  | h0 => simp
  | hs y j _ ih =>
    rw [shiftLeft_xor, clmul_xor_right, ih, clmul_xor_right, shiftLeft_xor, clmul_two_pow_right,
      ← Nat.one_shiftLeft, ← Nat.shiftLeft_add, Nat.one_shiftLeft, clmul_two_pow_right,
      Nat.shiftLeft_add]

theorem clmul_assoc (x y z : Nat) : clmul (clmul x y) z = clmul x (clmul y z) := by
  induction z using xor_induction with
  | h0 => simp
  | hs z k _ ih =>
    rw [clmul_xor_right, clmul_xor_right, clmul_xor_right, ih, clmul_two_pow_right,
      clmul_two_pow_right, clmul_shiftLeft]

theorem clmulBelow_lt {x a : Nat} (y n : Nat) (hx : x < 2 ^ (a + 1)) :
    clmulBelow x y n < 2 ^ (a + n) := by
  induction n with
  | zero => exact Nat.two_pow_pos _
  | succ n ih =>
    refine xor_lt (lt_of_lt_of_le ih (Nat.pow_le_pow_right (by omega) (by omega))) ?_
    split
    · rw [Nat.shiftLeft_eq]
      calc x * 2 ^ n < 2 ^ (a + 1) * 2 ^ n := Nat.mul_lt_mul_of_pos_right hx (Nat.two_pow_pos n)
        _ = 2 ^ (a + (n + 1)) := by rw [← Nat.pow_add]; congr 1; omega
    · exact Nat.two_pow_pos _

/-- The product fits the sum of the lengths (R202). -/
theorem clmul_lt {x y a b : Nat} (hx : x < 2 ^ a) (hy : y < 2 ^ b) : clmul x y < 2 ^ (a + b) := by
  rw [clmul_eq_below hy]
  exact clmulBelow_lt y b (lt_trans hx (Nat.pow_lt_pow_right (by omega) (by omega)))

/-- `deg(clmul(a, b)) = deg(a) + deg(b)` for nonzero operands (R202). -/
theorem deg_clmul {x y : Nat} (hx : x ≠ 0) (hy : y ≠ 0) : deg (clmul x y) = deg x + deg y := by
  have hyt : y.testBit (deg y) = true :=
    Nat.testBit_of_two_pow_le_and_two_pow_add_one_gt (two_pow_deg_le hy) (deg_lt y)
  have hlow := clmulBelow_lt y (deg y) (deg_lt x)
  have htop : x <<< deg y < 2 ^ (deg x + deg y + 1) := by
    rw [Nat.shiftLeft_eq, show deg x + deg y + 1 = (deg x + 1) + deg y by omega, Nat.pow_add]
    exact Nat.mul_lt_mul_of_pos_right (deg_lt x) (Nat.two_pow_pos _)
  have hge : 2 ^ (deg x + deg y) ≤ x <<< deg y := by
    rw [Nat.shiftLeft_eq, Nat.pow_add]
    exact Nat.mul_le_mul_right _ (two_pow_deg_le hx)
  have e : clmul x y = clmulBelow x y (deg y) ^^^ (x <<< deg y) := by
    simp [clmul, clmulBelow, hyt]
  rw [e]
  refine deg_eq_of_bounds ?_ (xor_lt (lt_trans hlow (Nat.pow_lt_pow_right (by omega) (by omega))) htop)
  refine Nat.ge_two_pow_of_testBit (i := deg x + deg y) ?_
  rw [Nat.testBit_xor, Nat.testBit_lt_two_pow hlow,
    Nat.testBit_of_two_pow_le_and_two_pow_add_one_gt hge htop]
  rfl

/-! ## Division -/

/-- One pass cancels the top bit: the degree falls. -/
theorem pass_lt {m r : Nat} (hm : m ≠ 0) (hr : r ≠ 0) (h : deg m ≤ deg r) :
    r ^^^ (m <<< (deg r - deg m)) < 2 ^ deg r := by
  have hd : deg r = deg m + (deg r - deg m) := by omega
  have h1 : 2 ^ deg r ≤ m <<< (deg r - deg m) := by
    conv_lhs => rw [hd]
    rw [Nat.shiftLeft_eq, Nat.pow_add]
    exact Nat.mul_le_mul_right _ (two_pow_deg_le hm)
  have h2 : m <<< (deg r - deg m) < 2 ^ (deg r + 1) := by
    have : deg r + 1 = (deg m + 1) + (deg r - deg m) := by omega
    rw [this, Nat.shiftLeft_eq, Nat.pow_add]
    exact Nat.mul_lt_mul_of_pos_right (deg_lt m) (Nat.two_pow_pos _)
  have a := xor_top h1 h2
  have b := xor_top (two_pow_deg_le hr) (deg_lt r)
  have e : r ^^^ (m <<< (deg r - deg m)) =
      (r ^^^ 2 ^ deg r) ^^^ ((m <<< (deg r - deg m)) ^^^ 2 ^ deg r) := by
    rw [Nat.xor_comm (m <<< _) (2 ^ _), ← Nat.xor_assoc, Nat.xor_xor_cancel_right]
  rw [e]
  exact xor_lt b a

/-- What the division loop does from any point: it keeps the dividend, it ends with a remainder of
degree below the modulus, and it sets quotient bits below the bound only. -/
theorem pdivLoop_spec {m : Nat} (hm : m ≠ 0) : ∀ n b q r, r < 2 ^ b → b ≤ n →
    (∀ j, j + deg m < b → q.testBit j = false) →
    clmul (pdivLoop m n q r).1 m ^^^ (pdivLoop m n q r).2 = clmul q m ^^^ r ∧
      ((pdivLoop m n q r).2 = 0 ∨ deg (pdivLoop m n q r).2 < deg m) ∧
      (∀ j, b ≤ j + deg m → (pdivLoop m n q r).1.testBit j = q.testBit j) := by
  intro n
  induction n with
  | zero =>
    intro b q r hr hb _
    obtain rfl : b = 0 := by omega
    obtain rfl : r = 0 := by simpa using hr
    exact ⟨rfl, Or.inl rfl, fun _ _ => rfl⟩
  | succ n ih =>
    intro b q r hr hb hq
    simp only [pdivLoop]
    split
    · next h =>
      obtain ⟨h0, hd⟩ := h
      have hdr : deg r < b := deg_lt_of_lt h0 hr
      have hlt := pass_lt hm h0 hd
      generalize he : deg r - deg m = e at *
      have hqe : q.testBit e = false := hq e (by omega)
      have hor : q ||| 1 <<< e = q ^^^ 2 ^ e := by
        refine Nat.eq_of_testBit_eq fun j => ?_
        rw [Nat.testBit_or, Nat.testBit_xor, Nat.one_shiftLeft, Nat.testBit_two_pow]
        by_cases hj : e = j
        · subst hj; simp [hqe]
        · simp [hj]
      obtain ⟨i1, i2, i3⟩ := ih (deg r) (q ||| 1 <<< e) (r ^^^ m <<< e) hlt (by omega)
        (fun j hj => by
          have : e ≠ j := by omega
          rw [hor, Nat.testBit_xor, hq j (by omega), Nat.testBit_two_pow]
          simp [this])
      refine ⟨?_, i2, fun j hj => ?_⟩
      · rw [i1, hor, clmul_xor_left, clmul_two_pow_left, Nat.xor_assoc, Nat.xor_comm r,
          ← Nat.xor_assoc (m <<< e), Nat.xor_self, Nat.zero_xor]
      · have : e ≠ j := by omega
        rw [i3 j (by omega), hor, Nat.testBit_xor, Nat.testBit_two_pow]
        simp [this]
    · next h =>
      refine ⟨rfl, ?_, fun _ _ => rfl⟩
      by_cases h0 : r = 0
      · exact Or.inl h0
      · exact Or.inr (by simp only [not_and, not_le] at h; exact h h0)

/-- Quotient times modulus plus remainder is the dividend (R14). -/
theorem clmul_pdiv_xor_pmod {m : Nat} (hm : m ≠ 0) (x : Nat) :
    clmul (pdiv x m) m ^^^ pmod x m = x := by
  have := (pdivLoop_spec hm (deg x + 1) (deg x + 1) 0 x (deg_lt x) le_rfl (by simp)).1
  simpa [pdiv, pmod, pdivmod] using this

/-- The remainder is 0 or of degree below the modulus (R14). -/
theorem pmod_deg {m : Nat} (hm : m ≠ 0) (x : Nat) : pmod x m = 0 ∨ deg (pmod x m) < deg m :=
  (pdivLoop_spec hm (deg x + 1) (deg x + 1) 0 x (deg_lt x) le_rfl (by simp)).2.1

theorem pmod_lt_two_pow_deg {m : Nat} (hm : m ≠ 0) (x : Nat) : pmod x m < 2 ^ deg m := by
  rcases pmod_deg hm x with h | h
  · rw [h]; exact Nat.two_pow_pos _
  · exact lt_of_lt_of_le (deg_lt _) (Nat.pow_le_pow_right (by omega) h)

/-- The remainder fits `n` bits when the modulus has at most `n + 1` (R204). -/
theorem pmod_lt {m n : Nat} (hm : m ≠ 0) (h : m < 2 ^ (n + 1)) (x : Nat) : pmod x m < 2 ^ n :=
  lt_of_lt_of_le (pmod_lt_two_pow_deg hm x)
    (Nat.pow_le_pow_right (by omega) (by have := deg_lt_of_lt hm h; omega))

/-- The quotient fits the length of the dividend (R203). -/
theorem pdiv_lt {m x n : Nat} (hm : m ≠ 0) (h : x < 2 ^ n) : pdiv x m < 2 ^ n := by
  rcases Nat.eq_zero_or_pos x with rfl | hx
  · have : pdiv 0 m = 0 := by simp [pdiv, pdivmod, pdivLoop, deg]
    rw [this]; exact Nat.two_pow_pos _
  · have hd := deg_lt_of_lt (by omega) h
    refine Nat.lt_pow_two_of_testBit _ fun j hj => ?_
    have := (pdivLoop_spec hm (deg x + 1) (deg x + 1) 0 x (deg_lt x) le_rfl (by simp)).2.2 j
      (by omega)
    simpa [pdiv, pdivmod] using this

/-- A reduced remainder and its quotient are unique (R14). -/
theorem remainder_unique {m q r q' r' : Nat} (hr : r < 2 ^ deg m) (hr' : r' < 2 ^ deg m)
    (hm : m ≠ 0) (h : clmul q m ^^^ r = clmul q' m ^^^ r') : q = q' ∧ r = r' := by
  have hx : clmul (q ^^^ q') m = r ^^^ r' := by
    rw [clmul_xor_left]
    calc clmul q m ^^^ clmul q' m = (clmul q m ^^^ r) ^^^ r ^^^ clmul q' m := by
          rw [Nat.xor_xor_cancel_right]
      _ = (clmul q' m ^^^ r') ^^^ r ^^^ clmul q' m := by rw [h]
      _ = r ^^^ r' ^^^ (clmul q' m ^^^ clmul q' m) := by ac_rfl
      _ = r ^^^ r' := by simp
  by_cases hq : q ^^^ q' = 0
  · have e : q = q' := Nat.xor_eq_zero_iff.1 hq
    rw [hq, clmul_zero_left] at hx
    exact ⟨e, Nat.xor_eq_zero_iff.1 hx.symm⟩
  · have hlt := xor_lt hr hr'
    rw [← hx] at hlt
    have hd := deg_clmul hq hm
    have hne : clmul (q ^^^ q') m ≠ 0 := fun h0 => by
      have h1 : (2 : Nat) ^ (deg (q ^^^ q') + deg m) ≤ 0 := by
        have h2 : 1 ≤ q ^^^ q' := Nat.one_le_iff_ne_zero.2 hq
        have := two_pow_deg_le hq
        exfalso
        rw [h0] at hd
        simp only [deg, Nat.log2_zero] at hd
        have e1 : Nat.log2 (q ^^^ q') = 0 := by omega
        have e2 : Nat.log2 m = 0 := by omega
        have l1 : q ^^^ q' < 2 := by have := deg_lt (q ^^^ q'); rw [deg, e1] at this; simpa using this
        have l2 : m < 2 := by have := deg_lt m; rw [deg, e2] at this; simpa using this
        have q1 : q ^^^ q' = 1 := by omega
        have m1 : m = 1 := by omega
        rw [q1, m1] at h0
        exact absurd h0 (by decide)
      exact absurd h1 (by have := Nat.two_pow_pos (deg (q ^^^ q') + deg m); omega)
    have := two_pow_deg_le hne
    rw [hd] at this
    have := Nat.pow_le_pow_right (show 0 < 2 by omega) (show deg m ≤ deg (q ^^^ q') + deg m by omega)
    omega

/-! ## Extended Euclid (R206) -/

theorem euclidLoop_fst (m : Nat) : ∀ n a b s t, (euclidLoop m n a b s t).1 = pgcdLoop n a b := by
  intro n
  induction n with
  | zero => intros; rfl
  | succ n ih =>
    intro a b s t
    simp only [euclidLoop, pgcdLoop]
    by_cases h : b = 0 <;> simp [h, ih]

/-- The first component of `euclid` is the gcd of R15. -/
theorem euclid_fst (a m : Nat) : (euclid a m).1 = pgcd a m := euclidLoop_fst m _ a m 1 0

/-- The loop carries a Bezout coefficient: `s * a` is `r` modulo `m`, for both tracks. -/
theorem euclidLoop_bezout {a m : Nat} (hm : m ≠ 0) : ∀ n rPrev r sPrev s,
    (∃ k, clmul sPrev a ^^^ rPrev = clmul k m) → (∃ k, clmul s a ^^^ r = clmul k m) →
    ∃ k, clmul (euclidLoop m n rPrev r sPrev s).2 a ^^^ (euclidLoop m n rPrev r sPrev s).1 =
      clmul k m := by
  intro n
  induction n with
  | zero => intro _ _ _ _ h _; exact h
  | succ n ih =>
    intro rPrev r sPrev s h1 h2
    simp only [euclidLoop]
    split
    · next hr =>
      refine ih _ _ _ _ h2 ?_
      obtain ⟨k1, h1⟩ := h1
      obtain ⟨k2, h2⟩ := h2
      have hd := clmul_pdiv_xor_pmod hr rPrev
      have hd2 := clmul_pdiv_xor_pmod hm (clmul (pdiv rPrev r) s)
      generalize pdiv rPrev r = q at *
      generalize pmod rPrev r = rem at *
      generalize pmod (clmul q s) m = u at *
      generalize pdiv (clmul q s) m = v at *
      refine ⟨k1 ^^^ clmul q k2 ^^^ clmul a v, ?_⟩
      rw [clmul_xor_left, clmul_xor_left, clmul_xor_left, ← h1, clmul_assoc, ← h2,
        clmul_xor_right, clmul_assoc a v m, clmul_comm a (clmul v m), ← clmul_assoc q s a, ← hd2,
        clmul_xor_left, ← hd]
      generalize clmul sPrev a = A
      generalize clmul (clmul v m) a = B
      generalize clmul u a = C
      generalize clmul q r = D
      have e : ∀ x y : Nat, x ^^^ (x ^^^ y) = y := fun x y => by
        rw [← Nat.xor_assoc, Nat.xor_self, Nat.zero_xor]
      calc A ^^^ C ^^^ rem = A ^^^ C ^^^ rem ^^^ (D ^^^ D) ^^^ (B ^^^ B) := by simp
        _ = _ := by ac_rfl
    · exact h1

/-- `c * a` is the gcd modulo `m` (R206). -/
theorem euclid_bezout {m : Nat} (hm : m ≠ 0) (a : Nat) :
    ∃ k, clmul (euclid a m).2 a ^^^ (euclid a m).1 = clmul k m :=
  euclidLoop_bezout hm _ a m 1 0
    ⟨0, by rw [show (1 : Nat) = 2 ^ 0 from rfl, clmul_two_pow_left]; simp⟩
    ⟨1, by rw [show (1 : Nat) = 2 ^ 0 from rfl, clmul_two_pow_left]; simp⟩

/-- Bit `k` of the product is the parity of the pairs of set bits whose positions add up to `k` (R14). -/
theorem testBit_clmulBelow (x y n k : Nat) :
    (clmulBelow x y n).testBit k = decide (((List.range n).countP fun j =>
      y.testBit j && decide (j ≤ k) && x.testBit (k - j)) % 2 = 1) := by
  induction n with
  | zero => simp [clmulBelow]
  | succ n ih =>
    rw [clmulBelow, Nat.testBit_xor, ih, List.range_succ, List.countP_append, List.countP_singleton]
    generalize (List.range n).countP _ = c
    by_cases h : y.testBit n <;> simp [h, Nat.testBit_shiftLeft]
    by_cases h2 : n ≤ k <;> simp [h2]
    cases x.testBit (k - n) <;> simp
    rcases Nat.mod_two_eq_zero_or_one c with h | h <;> simp [h, Nat.add_mod]

/-! ## Congruence modulo `m` -/

/-- The remainder is the only reduced value congruent to `x`. -/
theorem eq_pmod {m x q r : Nat} (hm : m ≠ 0) (hr : r < 2 ^ deg m) (h : clmul q m ^^^ r = x) :
    r = pmod x m :=
  (remainder_unique hr (pmod_lt_two_pow_deg hm x) hm
    (h.trans (clmul_pdiv_xor_pmod hm x).symm)).2

/-- Values whose difference is a multiple of `m` have one remainder. -/
theorem pmod_congr {m x y k : Nat} (hm : m ≠ 0) (h : x ^^^ y = clmul k m) : pmod x m = pmod y m := by
  refine eq_pmod hm (q := pdiv x m ^^^ k) (pmod_lt_two_pow_deg hm x) ?_
  rw [clmul_xor_left, ← h]
  calc clmul (pdiv x m) m ^^^ (x ^^^ y) ^^^ pmod x m
      = (clmul (pdiv x m) m ^^^ pmod x m) ^^^ (x ^^^ y) := by ac_rfl
    _ = y := by rw [clmul_pdiv_xor_pmod hm, ← Nat.xor_assoc, Nat.xor_self, Nat.zero_xor]

/-- A factor may be reduced before the product. -/
theorem pmod_clmul_pmod {m : Nat} (hm : m ≠ 0) (a x : Nat) :
    pmod (clmul a (pmod x m)) m = pmod (clmul a x) m := by
  refine pmod_congr hm (k := clmul a (pdiv x m)) ?_
  rw [← clmul_xor_right, clmul_assoc]
  congr 1
  calc pmod x m ^^^ x = pmod x m ^^^ (clmul (pdiv x m) m ^^^ pmod x m) := by
        rw [clmul_pdiv_xor_pmod hm]
    _ = clmul (pdiv x m) m ^^^ (pmod x m ^^^ pmod x m) := by ac_rfl
    _ = clmul (pdiv x m) m := by rw [Nat.xor_self, Nat.xor_zero]

/-- Values with one remainder differ by a multiple of `m`. -/
theorem exists_of_pmod_eq {m x y : Nat} (hm : m ≠ 0) (h : pmod x m = pmod y m) :
    ∃ k, x ^^^ y = clmul k m := by
  refine ⟨pdiv x m ^^^ pdiv y m, ?_⟩
  rw [clmul_xor_left]
  calc x ^^^ y = (clmul (pdiv x m) m ^^^ pmod x m) ^^^ (clmul (pdiv y m) m ^^^ pmod y m) := by
        rw [clmul_pdiv_xor_pmod hm, clmul_pdiv_xor_pmod hm]
    _ = clmul (pdiv x m) m ^^^ clmul (pdiv y m) m ^^^ (pmod x m ^^^ pmod y m) := by ac_rfl
    _ = _ := by rw [h, Nat.xor_self, Nat.xor_zero]

@[simp] theorem clmul_one_right (x : Nat) : clmul x 1 = x := by
  simpa using clmul_two_pow_right x 0

/-! ## The gcd divides both operands (R15) -/

theorem polyDvd_refl (g : Nat) : PolyDvd g g := ⟨1, by rw [clmul_comm, clmul_one_right]⟩

theorem polyDvd_zero (g : Nat) : PolyDvd g 0 := ⟨0, by simp⟩

theorem polyDvd_xor {g x y : Nat} (hx : PolyDvd g x) (hy : PolyDvd g y) : PolyDvd g (x ^^^ y) := by
  obtain ⟨k, rfl⟩ := hx
  obtain ⟨l, rfl⟩ := hy
  exact ⟨k ^^^ l, (clmul_xor_left ..).symm⟩

theorem polyDvd_clmul {g x : Nat} (y : Nat) (hx : PolyDvd g x) : PolyDvd g (clmul y x) := by
  obtain ⟨k, rfl⟩ := hx
  exact ⟨clmul y k, (clmul_assoc ..).symm⟩

/-- Only 1 divides 1. -/
theorem eq_one_of_polyDvd_one {g : Nat} (h : PolyDvd g 1) : g = 1 := by
  obtain ⟨k, hk⟩ := h
  have hg : g ≠ 0 := by rintro rfl; simp at hk
  have hk0 : k ≠ 0 := by rintro rfl; simp at hk
  have hd := deg_clmul hk0 hg
  have d1 : deg 1 = 0 := by decide
  have hlt := deg_lt g
  rw [← hk] at hd
  rw [show deg g = 0 by omega] at hlt
  omega

theorem pgcdLoop_dvd : ∀ n a b, b = 0 ∨ deg b < n →
    PolyDvd (pgcdLoop n a b) a ∧ PolyDvd (pgcdLoop n a b) b := by
  intro n
  induction n with
  | zero =>
    intro a b h
    have hb : b = 0 := by omega
    subst hb
    exact ⟨polyDvd_refl a, polyDvd_zero _⟩
  | succ n ih =>
    intro a b h
    rw [pgcdLoop]
    split
    · next hb =>
      subst hb
      exact ⟨polyDvd_refl a, polyDvd_zero _⟩
    · next hb =>
      obtain ⟨h1, h2⟩ := ih b (pmod a b) (by have := pmod_deg hb a; omega)
      have h3 := polyDvd_xor (polyDvd_clmul (pdiv a b) h1) h2
      rw [clmul_pdiv_xor_pmod hb a] at h3
      exact ⟨h3, h1⟩

theorem pgcd_dvd (a m : Nat) : PolyDvd (pgcd a m) a ∧ PolyDvd (pgcd a m) m :=
  pgcdLoop_dvd _ a m (by omega)

end Sys2Proof.Machine
end

