-- ==== Sys2Proof/Laws/Step.lean ====
section
/-! SUPPORT. What a host step, an engine turn and a step can do, said once each. -/

namespace Sys2Proof.Machine

/-! ## Host accesses -/

theorem accessProblem_eq_none {a : Access} {s : State} : accessProblem a s = none ↔ Accepted a s := by
  simp only [accessProblem, Accepted]
  cases s.rst <;> simp
  by_cases hw : a.width = .bits32 <;> simp [hw]
  by_cases hb : a.addr < s.cfg.base ∨ s.cfg.base + 256 ≤ a.addr <;> simp [hb] <;> omega

/-- A host step either is refused and faults, or is accepted and answers (R65, R66). -/
theorem hostStep_cases (a : Access) (s : State) :
    (¬ Accepted a s ∧ ∃ cause, accessProblem a s = some cause ∧
      hostStep a s = .fault (.busError cause)) ∨
    (Accepted a s ∧
      hostStep a s = .next { (busAccess a s).1 with response := some (busAccess a s).2 }) := by
  rw [← accessProblem_eq_none]
  cases h : accessProblem a s <;> simp [hostStep, h]

/-- The block's side of an accepted access: a read changes nothing, a write is `writeRegister`. -/
theorem busAccess_of_accepted {a : Access} {s : State} (h : Accepted a s) :
    busAccess a s =
      match a.kind with
      | .read => (s, .data (readRegister (a.addr - s.cfg.base) s))
      | .write x => (writeRegister (a.addr - s.cfg.base) x s, .ack) := by
  cases hk : a.kind <;> simp only [busAccess, accessProblem_eq_none.2 h, hk]

/-- Every way a register write can change the state (R64). -/
theorem writeRegister_cases (off : Nat) (x : Word) (s : State) :
    (off = 0x08 ∧ writeRegister off x s = { s with ie := x.getLsbD 0 }) ∨
    (off = 0x0C ∧ writeRegister off x s = clearStatus x s) ∨
    (off = 0x10 ∧ s.busy = true ∧ writeRegister off x s = { s with ovr := true }) ∨
    (off = 0x10 ∧ s.busy = false ∧ writeRegister off x s = acceptCommand x s) ∨
    (off = 0x14 ∧ writeRegister off x s = { s with arg := x }) ∨
    (off = 0x18 ∧ writeRegister off x s = { s with data := x }) ∨
    (off ≠ 0x08 ∧ off ≠ 0x0C ∧ off ≠ 0x10 ∧ off ≠ 0x14 ∧ off ≠ 0x18 ∧
      writeRegister off x s = s) := by
  unfold writeRegister
  split <;> simp_all [offerCommand]
  cases s.busy <;> simp

/-! ## The engine -/

theorem engineStep_idle {s : State} (h : s.busy = false) : engineStep s = .next s := by
  simp [engineStep, h]

theorem engineStep_busy {s : State} (h : s.busy = true) : engineStep s = runCommand s := by
  simp [engineStep, h]

theorem runCommand_cases (s : State) :
    (∃ i, decode s.cfg s.lcmd = .ok i ∧ runCommand s = exec i s) ∨
      (∃ e, decode s.cfg s.lcmd = .error e ∧ runCommand s = .next (s.raised .illegal)) := by
  simp only [runCommand, fetchCommand]
  cases h : decode s.cfg s.lcmd <;> simp [raise]

/-! ## The step -/

theorem nextEvent_cases (s : State) :
    (s.inputs = [] ∧ nextEvent s = (.engine, s)) ∨
      (∃ e rest, s.inputs = e :: rest ∧ nextEvent s = (e, { s with inputs := rest })) := by
  unfold nextEvent
  cases s.inputs <;> simp

/-- A step is an access of the host, a turn of the engine, or a change of the reset input, on the
state without the event. -/
theorem step_cases (s : State) :
    ∃ u : State, u = { s with inputs := u.inputs } ∧
      ((∃ a, s.inputs = .host a :: u.inputs ∧ step s = hostStep a u) ∨
        ((s.inputs = .engine :: u.inputs ∨ (s.inputs = [] ∧ u = s)) ∧ step s = engineStep u) ∨
        (s.inputs = .assertReset :: u.inputs ∧ step s = .next (assertReset u)) ∨
        (s.inputs = .releaseReset :: u.inputs ∧ step s = .next (releaseReset u))) := by
  rcases nextEvent_cases s with ⟨h, he⟩ | ⟨e, rest, h, he⟩
  · exact ⟨s, rfl, Or.inr (Or.inl ⟨Or.inr ⟨h, rfl⟩, by simp [step, he, perform]⟩)⟩
  · refine ⟨{ s with inputs := rest }, rfl, ?_⟩
    cases e <;> simp [step, he, perform, h]

theorem nextEvent_of_engineNext {s : State} (h : s.EngineNext) :
    nextEvent s = (.engine, { s with inputs := s.inputs.tail }) := by
  rcases nextEvent_cases s with ⟨h1, h2⟩ | ⟨e, rest, h1, h2⟩
  · rw [h2, h1, Prod.mk.injEq]
    refine ⟨rfl, ?_⟩
    cases s
    simp_all
  · rw [State.EngineNext, h2] at h
    simp only at h
    subst h
    rw [h2, h1]
    rfl

theorem not_engineNext_of_hostWrites {off : Nat} {x : Word} {s : State} (h : HostWrites off x s) :
    ¬ s.EngineNext := by
  obtain ⟨_, h, _⟩ := h
  simp [State.EngineNext, nextEvent, h]

theorem not_engineNext_of_resetNext {s : State} (h : ResetNext s) : ¬ s.EngineNext := by
  obtain ⟨_, h⟩ := h
  simp [State.EngineNext, nextEvent, h]

/-- An accepted write, as the claims name it. -/
theorem hostWrites_of_accepted {s u : State} {a : Access} {x : Word}
    (hu : u = { s with inputs := u.inputs }) (h : s.inputs = .host a :: u.inputs)
    (ha : Accepted a u) (hk : a.kind = .write x) : HostWrites (a.addr - u.cfg.base) x s := by
  have hc : u.cfg = s.cfg := by rw [hu]
  have hr : u.rst = s.rst := by rw [hu]
  obtain ⟨kind, width, addr⟩ := a
  obtain ⟨h1, h2, h3, h4, h5⟩ := ha
  simp only at h2 h3 h4 h5 hk ⊢
  refine ⟨u.inputs, ?_, hr ▸ h1⟩
  rw [h, hk, h2, Access.ofOffset, ← hc, Nat.add_sub_cancel' h3]

/-- An event is one write, to one offset. -/
theorem hostWrites_unique {a b : Nat} {x y : Word} {s : State} (h : HostWrites a x s)
    (h' : HostWrites b y s) : a = b ∧ x = y := by
  obtain ⟨_, h, _⟩ := h
  obtain ⟨_, h', _⟩ := h'
  rw [h] at h'
  simp only [Access.ofOffset, List.cons.injEq, Event.host.injEq, Access.mk.injEq,
    AccessKind.write.injEq, Nat.add_left_cancel_iff] at h'
  exact ⟨h'.1.2.2, h'.1.1⟩

theorem not_resetNext_of_hostWrites {off : Nat} {x : Word} {s : State} (h : HostWrites off x s) :
    ¬ ResetNext s := by
  obtain ⟨_, h, _⟩ := h
  rintro ⟨_, h'⟩
  rw [h] at h'
  cases h'

/-- The event does nothing to the block: a read, a write that is ignored, or the turn of an idle
engine. -/
def NoEffect (s : State) : Prop :=
  (s.EngineNext → s.busy = false) ∧ ¬ ResetNext s ∧
    ∀ off x, HostWrites off x s →
      off ≠ 0x08 ∧ off ≠ 0x0C ∧ off ≠ 0x10 ∧ off ≠ 0x14 ∧ off ≠ 0x18

/-- Every way a step can end in a next state: nothing but `inputs` and `response` changes, one of the
five writable registers is written, the engine completes a command or an illegal word, or `rst`
changes. -/
theorem step_next_cases {s t : State} (h : step s = .next t) :
    ∃ v,
      (NoEffect s ∧ t = { s with inputs := s.inputs.tail, response := v }) ∨
      (∃ x, HostWrites 0x08 x s ∧ t = { s with inputs := s.inputs.tail, response := v, ie := x.getLsbD 0 }) ∨
      (∃ x, HostWrites 0x0C x s ∧ t = { clearStatus x s with inputs := s.inputs.tail, response := v }) ∨
      (∃ x, HostWrites 0x10 x s ∧ s.busy = true ∧
        t = { s with inputs := s.inputs.tail, response := v, ovr := true }) ∨
      (∃ x, HostWrites 0x10 x s ∧ s.busy = false ∧
        t = { acceptCommand x s with inputs := s.inputs.tail, response := v }) ∨
      (∃ x, HostWrites 0x14 x s ∧ t = { s with inputs := s.inputs.tail, response := v, arg := x }) ∨
      (∃ x, HostWrites 0x18 x s ∧ t = { s with inputs := s.inputs.tail, response := v, data := x }) ∨
      (∃ i, Completes i s ∧ exec i { s with inputs := s.inputs.tail } = .next t) ∨
      (s.EngineNext ∧ s.busy = true ∧ (∀ i, decode s.cfg s.lcmd ≠ .ok i) ∧
        t = State.raised { s with inputs := s.inputs.tail } .illegal) ∨
      (ResetNext s ∧ t = { assertReset s with inputs := s.inputs.tail }) ∨
      ((∃ rest, s.inputs = .releaseReset :: rest) ∧ t = { releaseReset s with inputs := s.inputs.tail }) := by
  obtain ⟨u, hu, hs⟩ := step_cases s
  have hi : s.inputs.tail = u.inputs := by
    rcases hs with ⟨a, h1, _⟩ | ⟨h1 | ⟨h1, rfl⟩, _⟩ | ⟨h1, _⟩ | ⟨h1, _⟩ <;> simp [h1]
  rw [hi]
  clear hi
  rcases hs with ⟨a, h1, h2⟩ | ⟨h1, h2⟩ | ⟨h1, h2⟩ | ⟨h1, h2⟩
  · have hne : ¬ s.EngineNext := by simp [State.EngineNext, nextEvent, h1]
    rcases hostStep_cases a u with ⟨_, c, _, h4⟩ | ⟨ha, h4⟩
    · rw [h2, h4] at h
      cases h
    · rw [h2, h4, busAccess_of_accepted ha] at h
      injection h with h
      cases hk : a.kind with
      | read =>
        rw [hk] at h
        refine ⟨_, Or.inl ⟨⟨fun he => absurd he hne, ?_, ?_⟩, by rw [← h, hu]⟩⟩
        · rintro ⟨_, h'⟩
          rw [h1] at h'
          cases h'
        · rintro off x ⟨_, h', _⟩
          rw [h1] at h'
          cases h'
          cases hk
      | write x =>
        have hw := hostWrites_of_accepted hu h1 ha hk
        rw [hk] at h
        simp only at h
        generalize a.addr - u.cfg.base = off at hw h
        generalize u.inputs = inp at hu ⊢
        subst hu
        refine ⟨some .ack, ?_⟩
        rcases writeRegister_cases off x { s with inputs := inp } with
          ⟨rfl, e⟩ | ⟨rfl, e⟩ | ⟨rfl, hb, e⟩ | ⟨rfl, hb, e⟩ | ⟨rfl, e⟩ | ⟨rfl, e⟩ |
            ⟨_, _, _, _, _, e⟩ <;> rw [e] at h
        · exact .inr (.inl ⟨x, hw, h.symm⟩)
        · exact .inr (.inr (.inl ⟨x, hw, h.symm⟩))
        · exact .inr (.inr (.inr (.inl ⟨x, hw, hb, h.symm⟩)))
        · exact .inr (.inr (.inr (.inr (.inl ⟨x, hw, hb, h.symm⟩))))
        · exact .inr (.inr (.inr (.inr (.inr (.inl ⟨x, hw, h.symm⟩)))))
        · exact .inr (.inr (.inr (.inr (.inr (.inr (.inl ⟨x, hw, h.symm⟩))))))
        · refine .inl ⟨⟨fun he => absurd he hne, not_resetNext_of_hostWrites hw, fun off' y hy => ?_⟩,
            h.symm⟩
          rw [← (hostWrites_unique hw hy).1]
          exact ⟨by assumption, by assumption, by assumption, by assumption, by assumption⟩
  · have hen : s.EngineNext := by
      rcases h1 with h1 | ⟨h1, _⟩ <;> simp [State.EngineNext, nextEvent, h1]
    generalize u.inputs = inp at hu ⊢
    subst hu
    rw [h2] at h
    refine ⟨s.response, ?_⟩
    rcases Bool.eq_false_or_eq_true s.busy with hb | hb
    · rw [engineStep_busy (s := { s with inputs := inp }) hb] at h
      rcases runCommand_cases { s with inputs := inp } with ⟨i, g1, g2⟩ | ⟨e, g1, g2⟩
      · exact .inr (.inr (.inr (.inr (.inr (.inr (.inr (.inl ⟨i, ⟨hen, hb, g1⟩, g2 ▸ h⟩)))))))
      · rw [g2] at h
        injection h with h
        have hno : ∀ i, decode s.cfg s.lcmd ≠ .ok i := fun i hi => by rw [hi] at g1; cases g1
        exact .inr (.inr (.inr (.inr (.inr (.inr (.inr (.inr (.inl ⟨hen, hb, hno, h.symm⟩))))))))
    · rw [engineStep_idle (s := { s with inputs := inp }) hb] at h
      injection h with h
      exact .inl ⟨⟨fun _ => hb, fun hr => not_engineNext_of_resetNext hr hen,
        fun off x hw => absurd hen (not_engineNext_of_hostWrites hw)⟩, h.symm⟩
  · generalize u.inputs = inp at hu h1 ⊢
    subst hu
    rw [h2] at h
    injection h with h
    exact ⟨s.response, .inr (.inr (.inr (.inr (.inr (.inr (.inr (.inr (.inr (.inl
      ⟨⟨inp, h1⟩, h.symm⟩)))))))))⟩
  · generalize u.inputs = inp at hu h1 ⊢
    subst hu
    rw [h2] at h
    injection h with h
    exact ⟨s.response, .inr (.inr (.inr (.inr (.inr (.inr (.inr (.inr (.inr (.inr
      ⟨⟨inp, h1⟩, h.symm⟩)))))))))⟩

end Sys2Proof.Machine
end

