-- ==== Sys2Proof/Laws/Exec.lean ====
section
/-! SUPPORT. What a command can do, said once: how it ends, which fields it may write, and that it keeps the
vector storage in canonical form. -/

namespace Sys2Proof.Machine

/-! ## The checks of R201 and the shift commands -/

/-- The checks pass exactly under the three bounds of R201. -/
theorem modulusError_eq_none {c : Config} {m : Vec} {n : Nat} :
    modulusError c m n = none ↔ m.len ≤ n + 1 ∧ m.val ≠ 0 ∧ n ≤ c.capBits := by
  simp only [modulusError]
  constructor
  · intro h
    repeat' split at h
    all_goals first | contradiction | (refine ⟨?_, ?_, ?_⟩ <;> omega)
  · rintro ⟨h1, h2, h3⟩
    rw [if_neg (by omega), if_neg h2, if_neg (by omega)]

theorem modulusError_ne_ok {c : Config} {m : Vec} {n : Nat} {e : ErrorCode}
    (h : modulusError c m n = some e) : e ≠ .ok := by
  simp only [modulusError] at h
  repeat' split at h
  all_goals first | contradiction | (injection h with h; subst h; decide)

theorem shiftCommand_empty {fwd bwd : Nat → Nat → Nat → Nat} {vd : Reg} {s : State}
    (h : (s.readV vd).len = 0) :
    shiftCommand fwd bwd vd s = .next (s.raised .invalidOperation) := by
  simp [shiftCommand, h, raise]

theorem shiftCommand_nonempty {fwd bwd : Nat → Nat → Nat → Nat} {vd : Reg} {s : State}
    (h : (s.readV vd).len ≠ 0) :
    shiftCommand fwd bwd vd s = .next (State.completed (s.writeV vd
      ⟨(s.readV vd).len,
        (if argS s < 0 then bwd else fwd) (s.readV vd).len (s.readV vd).val (argS s).natAbs⟩)) := by
  simp [shiftCommand, h, complete]

/-! ## How a command ends (R240, R241) -/

/-- A command raises one error, or completes with new vectors, RESULT, comparison flags and NOINV. -/
theorem exec_cases (i : Instr) (s : State) :
    (∃ e, e ≠ .ok ∧ exec i s = .next (s.raised e)) ∨
    (∃ m r q l g n, exec i s = .next (State.completed
      { s with vectors := m, result := r, eq := q, lt := l, gt := g, noinv := n })) := by
  cases i
  all_goals simp only [exec, execNop, execAlloc, execMov, execGetlen, execGetb, execSetb, execFill,
    execPadl, execRdw, execWrw, execRdb, execAnd, execOr, execXor, execNot, execCmp, execRotl,
    execRotr, execShl, execShr, shiftCommand, execGfmul, execGfdiv, execGfmulmod, execGfinv]
  all_goals repeat' split
  all_goals first
    | exact Or.inl ⟨_, by decide, rfl⟩
    | exact Or.inr ⟨_, _, _, _, _, _, rfl⟩
    | exact Or.inl ⟨_, modulusError_ne_ok (by assumption), rfl⟩

/-- Which command may write the comparison flags, NOINV and RESULT (R39, R44, R45). -/
theorem exec_writes {i : Instr} {s t : State} (h : exec i s = .next t) :
    (SameCompareFlags s t ∨ ∃ va vb, i = .cmp va vb) ∧
    (t.noinv = s.noinv ∨ ∃ vd va vb, i = .gfinv vd va vb) ∧
    (t.result = s.result ∨
      ∃ va, i = .getlen va ∨ i = .getb va ∨ i = .rdw va ∨ i = .rdb va) := by
  cases i
  all_goals simp only [exec, execNop, execAlloc, execMov, execGetlen, execGetb, execSetb, execFill,
    execPadl, execRdw, execWrw, execRdb, execAnd, execOr, execXor, execNot, execCmp, execRotl,
    execRotr, execShl, execShr, shiftCommand, execGfmul, execGfdiv, execGfmulmod, execGfinv] at h
  all_goals repeat' split at h
  all_goals
    simp only [complete, raise] at h
    injection h with h
    subst h
    simp [SameCompareFlags]

/-! ## The canonical form of the storage (R9) -/

theorem binaryPadded_wf {c : Config} {a b : Vec} {f : Nat → Nat → Nat} (ha : a.wf c) (hb : b.wf c)
    (hf : ∀ x y n, x < 2 ^ n → y < 2 ^ n → f x y < 2 ^ n) : (binaryPadded f a b).wf c :=
  ⟨Nat.max_le.2 ⟨ha.1, hb.1⟩,
    hf _ _ _ (lt_of_lt_of_le ha.2 (Nat.pow_le_pow_right (by omega) (Nat.le_max_left ..)))
      (lt_of_lt_of_le hb.2 (Nat.pow_le_pow_right (by omega) (Nat.le_max_right ..)))⟩

theorem pmod_wf {c : Config} {m : Vec} {n : Nat} (h : modulusError c m n = none) (hm : m.wf c)
    (x : Nat) : Vec.wf c ⟨n, pmod x m.val⟩ := by
  obtain ⟨h1, h2, h3⟩ := modulusError_eq_none.1 h
  exact ⟨h3, pmod_lt h2 (lt_of_lt_of_le hm.2 (Nat.pow_le_pow_right (by omega) h1)) x⟩

/-- A well-formed command keeps the storage in canonical form. -/
theorem exec_keeps_wf {i : Instr} {s t : State} (hm : Memory.wf s.cfg s.vectors)
    (hw : i.wellFormed s.cfg = true) (h : exec i s = .next t) : Memory.wf s.cfg t.vectors := by
  have hv := fun r => readV_wf hm r
  have wr : ∀ r v, Vec.wf s.cfg v → r.val < s.cfg.nv →
      Memory.wf s.cfg (s.writeV r v).completed.vectors := fun r v h1 h2 => write_wf hm h1 h2
  cases i
  all_goals simp only [Instr.wellFormed, Instr.regs, List.all_cons, List.all_nil, Bool.and_true,
    Bool.and_eq_true, decide_eq_true_eq] at hw
  all_goals simp only [exec, execNop, execAlloc, execMov, execGetlen, execGetb, execSetb, execFill,
    execPadl, execRdw, execWrw, execRdb, execAnd, execOr, execXor, execNot, execCmp, execRotl,
    execRotr, execShl, execShr, shiftCommand, execGfmul, execGfdiv, execGfmulmod, execGfinv] at h
  all_goals repeat' split at h
  all_goals
    simp only [complete, raise] at h
    injection h with h
    subst h
  all_goals first | exact hm | skip
  -- every command but GFDIV writes one register
  all_goals first | refine wr _ _ ?_ (by first | exact hw.1 | exact hw) | skip
  · exact ⟨by simp only; omega, Nat.two_pow_pos _⟩
  · exact hv _
  · next h => exact setBit_wf _ (hv _) ((resolveIndex_eq_some _ _ _).1 h).1
  · exact ⟨(hv _).1, mask_lt _⟩
  · exact ⟨(hv _).1, Nat.two_pow_pos _⟩
  · exact ⟨by simp only; omega,
      lt_of_lt_of_le (hv _).2 (Nat.pow_le_pow_right (by omega) (by simp))⟩
  · exact wordWrite_wf _ _ _ (hv _)
  · exact binaryPadded_wf (hv _) (hv _) fun _ _ _ h _ => lt_of_le_of_lt Nat.and_le_left h
  · exact binaryPadded_wf (hv _) (hv _) fun _ _ _ => Nat.or_lt_two_pow
  · exact binaryPadded_wf (hv _) (hv _) fun _ _ _ => Nat.xor_lt_two_pow
  · next va => exact ⟨(hv va).1, by have := mask_lt (s.readV va).len; simp only; omega⟩
  · exact ⟨(hv _).1, rotateRight_lt ..⟩
  · exact ⟨(hv _).1, rotateLeft_lt ..⟩
  · exact ⟨(hv _).1, rotateLeft_lt ..⟩
  · exact ⟨(hv _).1, rotateRight_lt ..⟩
  · exact ⟨(hv _).1, shiftRight_lt _ (hv _).2⟩
  · exact ⟨(hv _).1, shiftLeft_lt ..⟩
  · exact ⟨(hv _).1, shiftLeft_lt ..⟩
  · exact ⟨(hv _).1, shiftRight_lt _ (hv _).2⟩
  · exact ⟨by simp only; omega, clmul_lt (hv _).2 (hv _).2⟩
  · next vc va vb _ h =>
    exact write_wf (write_wf hm ⟨(hv va).1, pdiv_lt (modulusError_eq_none.1 h).2.1 (hv va).2⟩ hw.1)
      (pmod_wf h (hv vb) _) hw.2.1
  · next h => exact pmod_wf h (hv _) _
  · next h _ => exact pmod_wf h (hv _) _

end Sys2Proof.Machine
end

