-- ==== Sys2Proof/Laws/PerInstr.lean ====
section
/-! SUPPORT. One lemma per command: the command read back from its own fields is the command, every operand
with it (R91, R92, R96). -/

namespace Sys2Proof.Laws.FieldsReadBack

/-- The fields of `i` select `i`. -/
def Statement (i : Instr) : Prop := instrOf i.fields = some i

theorem nop : Statement .nop := by
  simp [Statement, Instr.fields, instrOf]

theorem alloc (vd : Reg) : Statement (.alloc vd) := by
  simp [Statement, Instr.fields, instrOf]

theorem mov (vd va : Reg) : Statement (.mov vd va) := by
  simp [Statement, Instr.fields, instrOf]

theorem getlen (va : Reg) : Statement (.getlen va) := by
  simp [Statement, Instr.fields, instrOf]

theorem getb (va : Reg) : Statement (.getb va) := by
  simp [Statement, Instr.fields, instrOf]

theorem setb (vd : Reg) (imm : BitVec 10) : Statement (.setb vd imm) := by
  simp [Statement, Instr.fields, instrOf]

theorem fill (vd : Reg) (imm : BitVec 10) : Statement (.fill vd imm) := by
  simp [Statement, Instr.fields, instrOf]

theorem padl (vd : Reg) : Statement (.padl vd) := by
  simp [Statement, Instr.fields, instrOf]

theorem rdw (va : Reg) : Statement (.rdw va) := by
  simp [Statement, Instr.fields, instrOf]

theorem wrw (vd : Reg) : Statement (.wrw vd) := by
  simp [Statement, Instr.fields, instrOf]

theorem rdb (va : Reg) : Statement (.rdb va) := by
  simp [Statement, Instr.fields, instrOf]

theorem and (vd va vb : Reg) : Statement (.and vd va vb) := by
  simp [Statement, Instr.fields, instrOf]

theorem or (vd va vb : Reg) : Statement (.or vd va vb) := by
  simp [Statement, Instr.fields, instrOf]

theorem xor (vd va vb : Reg) : Statement (.xor vd va vb) := by
  simp [Statement, Instr.fields, instrOf]

theorem not (vd va : Reg) : Statement (.not vd va) := by
  simp [Statement, Instr.fields, instrOf]

theorem cmp (va vb : Reg) : Statement (.cmp va vb) := by
  simp [Statement, Instr.fields, instrOf]

theorem rotl (vd : Reg) : Statement (.rotl vd) := by
  simp [Statement, Instr.fields, instrOf]

theorem rotr (vd : Reg) : Statement (.rotr vd) := by
  simp [Statement, Instr.fields, instrOf]

theorem shl (vd : Reg) : Statement (.shl vd) := by
  simp [Statement, Instr.fields, instrOf]

theorem shr (vd : Reg) : Statement (.shr vd) := by
  simp [Statement, Instr.fields, instrOf]

theorem gfmul (vd va vb : Reg) : Statement (.gfmul vd va vb) := by
  simp [Statement, Instr.fields, instrOf]

theorem gfdiv (vd vc va vb : Reg) : Statement (.gfdiv vd vc va vb) := by
  simp [Statement, Instr.fields, instrOf]

theorem gfmulmod (vd va vb vc : Reg) : Statement (.gfmulmod vd va vb vc) := by
  simp [Statement, Instr.fields, instrOf]

theorem gfinv (vd va vb : Reg) : Statement (.gfinv vd va vb) := by
  simp [Statement, Instr.fields, instrOf]

end Sys2Proof.Laws.FieldsReadBack
end

