-- ==== Sys2Proof/Tests/Slice0.lean ====
section
/-! SUPPORT. Small tests of the model. The expected values come from the spec: the encodings of R91, R92 and
R96 written out field by field, the examples that end each command's rule and the vectors of
95_test_vectors.md (W = 16, CAPBITS = 1024, NV = 16). At the end, for every statement with hypotheses, a
state and operands that meet them. -/

namespace Sys2Proof.Tests

open Sys2Proof Sys2Proof.Machine

/-! ## Helpers -/

/-- The default configuration with eight registers, the one a register field can overrun. -/
def cfg8 : Config := { Config.standard with nv := 8 }

/-- The reset state with ARG latched as `a` and the vectors `v1`, `v2` in V1 and V2. -/
def st (a : Word) (v1 v2 : Vec) : State := ({ State.reset with larg := a }.writeV 1 v1).writeV 2 v2

/-- The state a command ends in. -/
def after (o : StepOutcome) : State :=
  match o with
  | .next t => t
  | _ => State.reset

/-- A step's outcome is `.next` of a state that passes `p`. -/
def ends (o : StepOutcome) (p : State → Bool) : Bool :=
  match o with
  | .next t => p t
  | _ => false

/-- The command completes with OK and leaves `v` in V[r]. -/
def gives (i : Instr) (s : State) (r : Reg) (v : Vec) : Bool :=
  ends (exec i s) fun t => t.readV r == v && t.ecode == .ok && t.done && !t.busy

/-- The command completes with OK and leaves `x` in RESULT. -/
def reads (i : Instr) (s : State) (x : Word) : Bool :=
  ends (exec i s) fun t => t.result == x && t.ecode == .ok && t.done

/-- The command raises `e` and leaves the vectors and RESULT alone. -/
def raises (i : Instr) (s : State) (e : ErrorCode) : Bool :=
  ends (exec i s) fun t =>
    t.ecode == e && t.err && t.done && !t.busy && t.vectors == s.vectors && t.result == s.result

/-! ## WellFormed refuses a register at or above NV, field by field (R98) -/

theorem test_wellFormed_refuses_storage :
    [Instr.alloc 8, .mov 8 0, .mov 0 8, .getlen 8, .getb 8, .setb 8 0, .fill 8 0, .padl 8, .rdw 8,
      .wrw 8, .rdb 8].all (fun i => !i.wellFormed cfg8) = true := by decide

theorem test_wellFormed_refuses_bitwise :
    [Instr.and 8 0 0, .and 0 8 0, .and 0 0 8, .or 8 0 0, .or 0 8 0, .or 0 0 8, .xor 8 0 0,
      .xor 0 8 0, .xor 0 0 8, .not 8 0, .not 0 8, .cmp 8 0, .cmp 0 8].all
      (fun i => !i.wellFormed cfg8) = true := by decide

theorem test_wellFormed_refuses_shift :
    [Instr.rotl 8, .rotr 8, .shl 8, .shr 8].all (fun i => !i.wellFormed cfg8) = true := by decide

theorem test_wellFormed_refuses_gf :
    [Instr.gfmul 8 0 0, .gfmul 0 8 0, .gfmul 0 0 8, .gfdiv 8 0 0 0, .gfdiv 0 8 0 0, .gfdiv 0 0 8 0,
      .gfdiv 0 0 0 8, .gfmulmod 8 0 0 0, .gfmulmod 0 8 0 0, .gfmulmod 0 0 8 0, .gfmulmod 0 0 0 8,
      .gfinv 8 0 0, .gfinv 0 8 0, .gfinv 0 0 8].all (fun i => !i.wellFormed cfg8) = true := by decide

/-- NOP names no register; the highest register that exists is accepted in every field. -/
theorem test_wellFormed_accepts :
    [Instr.nop, .alloc 7, .setb 7 1023, .and 7 7 7, .cmp 7 7, .rotl 7, .gfdiv 7 7 7 7].all
      (fun i => i.wellFormed cfg8) = true := by decide

/-! ## Decoding: words written out as OP VD VA VB VC IMM -/

theorem test_decode_storage_words :
    decode Config.standard 0b000000_0000_0000_0000_0000_0000000000 = .ok .nop ∧
    decode Config.standard 0b000001_0101_0000_0000_0000_0000000000 = .ok (.alloc 5) ∧
    decode Config.standard 0b000010_0101_1001_0000_0000_0000000000 = .ok (.mov 5 9) ∧
    decode Config.standard 0b000011_0000_1001_0000_0000_0000000000 = .ok (.getlen 9) ∧
    decode Config.standard 0b000100_0000_1001_0000_0000_0000000000 = .ok (.getb 9) ∧
    decode Config.standard 0b000101_0101_0000_0000_0000_1000000010 = .ok (.setb 5 514) ∧
    decode Config.standard 0b000110_0101_0000_0000_0000_0000000001 = .ok (.fill 5 1) ∧
    decode Config.standard 0b000111_1010_0000_0000_0000_0000000000 = .ok (.padl 10) ∧
    decode Config.standard 0b001000_0000_0110_0000_0000_0000000000 = .ok (.rdw 6) ∧
    decode Config.standard 0b001001_0110_0000_0000_0000_0000000000 = .ok (.wrw 6) ∧
    decode Config.standard 0b001010_0000_1111_0000_0000_0000000000 = .ok (.rdb 15) := by decide

theorem test_decode_bitwise_words :
    decode Config.standard 0b010000_0001_0010_0100_0000_0000000000 = .ok (.and 1 2 4) ∧
    decode Config.standard 0b010001_0001_0010_0100_0000_0000000000 = .ok (.or 1 2 4) ∧
    decode Config.standard 0b010010_0001_0010_0100_0000_0000000000 = .ok (.xor 1 2 4) ∧
    decode Config.standard 0b010011_0001_0010_0000_0000_0000000000 = .ok (.not 1 2) ∧
    decode Config.standard 0b010100_0000_1001_1100_0000_0000000000 = .ok (.cmp 9 12) := by decide

theorem test_decode_shift_words :
    decode Config.standard 0b011000_0011_0000_0000_0000_0000000000 = .ok (.rotl 3) ∧
    decode Config.standard 0b011001_0011_0000_0000_0000_0000000000 = .ok (.rotr 3) ∧
    decode Config.standard 0b011010_0011_0000_0000_0000_0000000000 = .ok (.shl 3) ∧
    decode Config.standard 0b011011_0011_0000_0000_0000_0000000000 = .ok (.shr 3) := by decide

/-- GFDIV's operands are vd, vc, va, vb and GFMULMOD's vd, va, vb, vc (R102), its modulus in VB or VC
(R91). -/
theorem test_decode_gf_words :
    decode Config.standard 0b100000_0001_0010_0100_0000_0000000000 = .ok (.gfmul 1 2 4) ∧
    decode Config.standard 0b100001_0001_0010_0100_1000_0000000000 = .ok (.gfdiv 1 8 2 4) ∧
    decode Config.standard 0b100010_0001_0010_0100_1000_0000000000 = .ok (.gfmulmod 1 2 4 8) ∧
    decode Config.standard 0b100011_0001_0010_0100_0000_0000000000 = .ok (.gfinv 1 2 4) := by decide

/-- The bounds of the undefined OP ranges of R97. -/
theorem test_decode_undefined_opcodes :
    ([0x0B, 0x0F, 0x15, 0x17, 0x1C, 0x1F, 0x24, 0x3F].all fun op : Nat =>
      match decode Config.standard (BitVec.ofNat 32 (op * 2 ^ 26)) with
      | .error .undefinedOpcode => true
      | _ => false) = true := by decide

/-- One set bit in each field that each format requires to be zero (R92, R97): N, D, DI, A, DA, AB, DAB,
DCAB. -/
theorem test_decode_reserved_fields :
    ([0x00000001, 0x04000400, 0x04004000, 0x04040000, 0x04000001, 0x14000400, 0x14004000, 0x14040000,
      0x0C400000, 0x0C004000, 0x0C000400, 0x0C000001, 0x08004000, 0x08000400, 0x08000001,
      0x50400000, 0x50000400, 0x50000001, 0x40000400, 0x40000001, 0x84000001].all
      fun x : Nat =>
        match decode Config.standard (BitVec.ofNat 32 x) with
        | .error .reservedFieldNonzero => true
        | _ => false) = true := by decide

theorem test_decode_missing_register :
    decode cfg8 0b000001_1000_0000_0000_0000_0000000000 = .error .registerNumber ∧
    decode cfg8 0b100001_0111_0111_0111_1000_0000000000 = .error .registerNumber ∧
    decode cfg8 0b100001_0111_0111_0111_0111_0000000000 = .ok (.gfdiv 7 7 7 7) := by decide

theorem test_decodeTableWord :
    decodeTableWord 32 0x40804000 = some (.and 2 0 1) ∧ decodeTableWord 32 0x2C000000 = none := by
  decide

/-- The very next step runs the placed word: here ALLOC v0 with LARG = 0, and NOP. -/
theorem test_withFetchWord :
    step (State.reset.withFetchWord 32 0x04000000) =
      exec (.alloc 0) { State.reset.withFetchWord 32 0x04000000 with inputs := [] } ∧
    step (State.reset.withFetchWord 32 0) = exec .nop { State.reset.withFetchWord 32 0 with inputs := [] } :=
  ⟨rfl, rfl⟩

/-! ## Commands: the examples of their rules and the vectors of 95_test_vectors.md -/

theorem test_nop : ends (exec .nop State.reset) (fun t => statusWord t == 0x002) = true := by decide

theorem test_alloc_five : gives (.alloc 1) (st 5 ⟨3, 5⟩ ⟨0, 0⟩) 1 ⟨5, 0⟩ = true := by decide
theorem test_alloc_capacity :
    gives (.alloc 1) (st 1024 ⟨0, 0⟩ ⟨0, 0⟩) 1 ⟨1024, 0⟩ = true ∧
      raises (.alloc 1) (st 1025 ⟨0, 0⟩ ⟨0, 0⟩) .capacity = true := by decide

theorem test_mov : gives (.mov 2 1) (st 0 ⟨3, 0b101⟩ ⟨9, 1⟩) 2 ⟨3, 0b101⟩ = true := by decide

theorem test_getlen : reads (.getlen 1) (st 0 ⟨7, 0b1011001⟩ ⟨0, 0⟩) 7 = true := by decide

theorem test_getb_signed_index :
    reads (.getb 1) (st 1 ⟨7, 0b1011001⟩ ⟨0, 0⟩) 0 = true ∧
      reads (.getb 1) (st 0xFFFFFFFF ⟨7, 0b1011001⟩ ⟨0, 0⟩) 1 = true ∧
      reads (.getb 1) (st 0xFFFFFFF9 ⟨7, 0b1011001⟩ ⟨0, 0⟩) 1 = true := by decide
theorem test_getb_range :
    raises (.getb 1) (st 7 ⟨7, 0b1011001⟩ ⟨0, 0⟩) .range = true ∧
      raises (.getb 1) (st 0xFFFFFFF8 ⟨7, 0b1011001⟩ ⟨0, 0⟩) .range = true := by decide

theorem test_setb_last : gives (.setb 1 1) (st 0xFFFFFFFF ⟨4, 0⟩ ⟨0, 0⟩) 1 ⟨4, 0b0001⟩ = true := by
  decide
/-- INVALID_VALUE comes before RANGE (R251). -/
theorem test_setb_check_order :
    raises (.setb 1 2) (st 99 ⟨4, 0⟩ ⟨0, 0⟩) .invalidValue = true ∧
      raises (.setb 1 1) (st 99 ⟨4, 0⟩ ⟨0, 0⟩) .range = true := by decide

theorem test_fill_ones : gives (.fill 1 1) (st 0 ⟨5, 0⟩ ⟨0, 0⟩) 1 ⟨5, 31⟩ = true := by decide
theorem test_fill_invalid : raises (.fill 1 1023) (st 0 ⟨5, 0⟩ ⟨0, 0⟩) .invalidValue = true := by decide

theorem test_padl_two : gives (.padl 1) (st 2 ⟨3, 0b101⟩ ⟨0, 0⟩) 1 ⟨5, 0b00101⟩ = true := by decide
theorem test_padl_capacity :
    raises (.padl 1) (st 0xFFFFFFFF ⟨3, 0b101⟩ ⟨0, 0⟩) .capacity = true := by decide

theorem test_rdw_lsb_first :
    reads (.rdw 1) (st 0 ⟨16, 0b1010010111110000⟩ ⟨0, 0⟩) 0x0FA5 = true := by decide
/-- FILL sets the 5 logical bits only, and the last word shows no more (R127, R130). -/
theorem test_rdw_last_word :
    reads (.rdw 1) (st 0 ⟨5, 31⟩ ⟨0, 0⟩) 0x001F = true ∧
      raises (.rdw 1) (st 1 ⟨16, 0⟩ ⟨0, 0⟩) .range = true := by decide

theorem test_wrw_discards_excess :
    gives (.wrw 1) { st 1 ⟨20, 0⟩ ⟨0, 0⟩ with ldata := 0xFFFF } 1 ⟨20, 15⟩ = true := by decide
/-- LDATA[31:W] is ignored; word 0 bit 0 is the vector's MSB (R62, R131). -/
theorem test_wrw_uses_low_word :
    gives (.wrw 1) { st 0 ⟨20, 0⟩ ⟨0, 0⟩ with ldata := 0xFFFF0001 } 1 ⟨20, 0x80000⟩ = true := by decide

theorem test_rdb_bytes :
    reads (.rdb 1) (st 0 ⟨16, 0b1010010111110000⟩ ⟨0, 0⟩) 0xA5 = true ∧
      reads (.rdb 1) (st 1 ⟨16, 0b1010010111110000⟩ ⟨0, 0⟩) 0xF0 = true := by decide
theorem test_rdb_check_order :
    raises (.rdb 1) (st 9 ⟨7, 0⟩ ⟨0, 0⟩) .invalidOperation = true ∧
      raises (.rdb 1) (st 0 ⟨0, 0⟩ ⟨0, 0⟩) .range = true := by decide

theorem test_and_pads_left :
    gives (.and 3 1 2) (st 0 ⟨4, 0b1100⟩ ⟨2, 0b10⟩) 3 ⟨4, 0⟩ = true ∧
      gives (.and 1 1 2) (st 0 ⟨4, 0b1110⟩ ⟨4, 0b0111⟩) 1 ⟨4, 0b0110⟩ = true := by decide
theorem test_or_pads_left : gives (.or 3 1 2) (st 0 ⟨4, 0b1100⟩ ⟨2, 0b11⟩) 3 ⟨4, 0b1111⟩ = true := by
  decide
theorem test_xor_pads_left :
    gives (.xor 2 1 2) (st 0 ⟨4, 0b1011⟩ ⟨3, 0b110⟩) 2 ⟨4, 0b1101⟩ = true := by decide
theorem test_not : gives (.not 2 1) (st 0 ⟨7, 0b1010010⟩ ⟨0, 0⟩) 2 ⟨7, 0b0101101⟩ = true := by decide

theorem test_cmp_length_matters :
    ends (exec (.cmp 1 2) (st 0 ⟨4, 0b0011⟩ ⟨2, 0b11⟩)) (fun t => statusWord t == 0x002) = true := by
  decide
theorem test_cmp_greater_and_equal :
    ends (exec (.cmp 1 2) (st 0 ⟨4, 0b0100⟩ ⟨4, 0b0011⟩)) (fun t => statusWord t == 0x012) = true ∧
      ends (exec (.cmp 1 1) (st 0 ⟨4, 0b0100⟩ ⟨0, 0⟩)) (fun t => statusWord t == 0x006) = true := by
  decide

theorem test_rotl :
    gives (.rotl 1) (st 1 ⟨5, 0b10110⟩ ⟨0, 0⟩) 1 ⟨5, 0b01101⟩ = true ∧
      gives (.rotl 1) (st 7 ⟨5, 0b10110⟩ ⟨0, 0⟩) 1 ⟨5, 0b11010⟩ = true := by decide
theorem test_rotl_empty : raises (.rotl 1) (st 0 ⟨0, 0⟩ ⟨0, 0⟩) .invalidOperation = true := by decide
theorem test_rotr :
    gives (.rotr 1) (st 1 ⟨5, 0b10110⟩ ⟨0, 0⟩) 1 ⟨5, 0b01011⟩ = true ∧
      gives (.rotr 1) (st 0xFFFFFFFF ⟨5, 0b10110⟩ ⟨0, 0⟩) 1 ⟨5, 0b01101⟩ = true := by decide
theorem test_shl :
    gives (.shl 1) (st 2 ⟨5, 0b10110⟩ ⟨0, 0⟩) 1 ⟨5, 0b11000⟩ = true ∧
      gives (.shl 1) (st 0x7FFFFFFF ⟨5, 0b10110⟩ ⟨0, 0⟩) 1 ⟨5, 0⟩ = true := by decide
theorem test_shl_empty : raises (.shl 1) (st 0 ⟨0, 0⟩ ⟨0, 0⟩) .invalidOperation = true := by decide
theorem test_shr :
    gives (.shr 1) (st 2 ⟨5, 0b10110⟩ ⟨0, 0⟩) 1 ⟨5, 0b00101⟩ = true ∧
      gives (.shr 1) (st 0xFFFFFFFE ⟨5, 0b10110⟩ ⟨0, 0⟩) 1 ⟨5, 0b11000⟩ = true := by decide

theorem test_gfmul :
    gives (.gfmul 3 1 2) (st 0 ⟨8, 0x57⟩ ⟨8, 0x83⟩) 3 ⟨16, 0x2B79⟩ = true := by decide

/-- The source's own example (T-SRC-1). -/
theorem test_gfdiv_source_example :
    gives (.gfdiv 3 4 1 2) (st 8 ⟨14, 0b11100010110001⟩ ⟨9, 0b100011011⟩) 3 ⟨14, 0b111010⟩ = true ∧
      gives (.gfdiv 3 4 1 2) (st 8 ⟨14, 0b11100010110001⟩ ⟨9, 0b100011011⟩) 4 ⟨8, 0b10001111⟩ = true := by
  decide
/-- When both destinations are one register the remainder stays (D24); the modulus checks (R201). -/
theorem test_gfdiv_corners :
    gives (.gfdiv 1 1 1 2) (st 8 ⟨14, 0b11100010110001⟩ ⟨9, 0b100011011⟩) 1 ⟨8, 0b10001111⟩ = true ∧
      raises (.gfdiv 3 4 1 2) (st 7 ⟨14, 1⟩ ⟨9, 0b100011011⟩) .invalidArgument = true ∧
      raises (.gfdiv 3 4 1 2) (st 2000 ⟨14, 1⟩ ⟨9, 0⟩) .invalidArgument = true ∧
      raises (.gfdiv 3 4 1 2) (st 0xFFFFFFFF ⟨14, 1⟩ ⟨9, 1⟩) .capacity = true := by decide

theorem test_gfmulmod :
    gives (.gfmulmod 4 1 2 3) ((st 8 ⟨8, 0x57⟩ ⟨8, 0x83⟩).writeV 3 ⟨9, 0x11B⟩) 4 ⟨8, 0xC1⟩ = true := by
  decide

theorem test_gfinv :
    gives (.gfinv 3 1 2) (st 8 ⟨8, 0x53⟩ ⟨9, 0x11B⟩) 3 ⟨8, 0xCA⟩ = true := by decide
/-- No inverse: OK with NOINV = 1, and the destination, here also the source, keeps its value. -/
theorem test_gfinv_noinv :
    gives (.gfinv 1 1 2) (st 3 ⟨3, 0b110⟩ ⟨4, 0b1010⟩) 1 ⟨3, 0b110⟩ = true ∧
      ends (exec (.gfinv 1 1 2) (st 3 ⟨3, 0b110⟩ ⟨4, 0b1010⟩)) (fun t => statusWord t == 0x022) = true := by
  decide

/-! ## The host interface and reset (T-HOST, T-HAZ, T-RST) -/

/-- The reset state with one host access next. -/
def withHost (s : State) (off : Nat) (k : AccessKind) : State :=
  { s with inputs := [.host (Access.ofOffset s.cfg off k)] }

theorem test_read_constants :
    ends (step (withHost State.reset 0x00 .read)) (fun t => t.response == some (.data 0x42560001)) = true ∧
      ends (step (withHost State.reset 0x04 .read)) (fun t => t.response == some (.data 0x10100400)) = true ∧
      ends (step (withHost State.reset 0x10 .read)) (fun t => t.response == some (.data 0)) = true := by
  decide

theorem test_reserved_offset_ignores_writes :
    ends (step (withHost State.reset 0x40 (.write 0x12345678)))
      (fun t => t == { State.reset with response := some .ack }) = true := by decide

/-- STATUS 0x142 and a write of all ones give 0x100 (T-HOST-6). -/
theorem test_status_write_one_to_clear :
    ends (step (withHost { State.reset with done := true, err := true, ecode := .range }
      0x0C (.write 0xFFFFFFFF))) (fun t => statusWord t == 0x100) = true := by decide

theorem test_refused_accesses :
    (busAccess ⟨.write 1, .bits16, 0x14⟩ State.reset).2 = .error ∧
      (busAccess ⟨.read, .bits32, 0x06⟩ State.reset).2 = .error ∧
      (busAccess ⟨.read, .bits32, 0x100⟩ State.reset).2 = .error ∧
      (busAccess ⟨.read, .bits32, 0xFC⟩ State.reset).2 = .data 0 := by decide

/-- A CMD write while BUSY is lost and sets OVR (T-HAZ-1 b). -/
theorem test_cmd_write_while_busy :
    ends (step (withHost { State.reset with busy := true, lcmd := 0x04000000, larg := 5 } 0x10 (.write 0)))
      (fun t => t.ovr && t.lcmd == 0x04000000 && t.larg == 5 && t.busy) = true := by decide

theorem test_reset_discards_pending :
    ends (step { State.reset with busy := true, lcmd := 0, inputs := [.assertReset] })
      (fun t => statusWord t == 0 && t.rst) = true := by decide

/-! ## Witnesses: concrete states and operands that meet the hypotheses of each statement -/

/-- The engine's turn is next and the word `x` is pending. -/
def pending (x : Word) (s : State) : State := { acceptCommand x s with inputs := [.engine] }

theorem witness_DecodeOfEncodeIsTheCommand :
    (Instr.gfdiv 15 14 13 12).wellFormed Config.standard = true ∧
      (Instr.setb 7 1023).wellFormed cfg8 = true := by decide

theorem witness_DecodedWordIsTheEncoding :
    decode Config.standard 0x86B36C00 = .ok (.gfdiv 10 11 12 13) := by decide

theorem witness_StepRunsTheDecodedCommand :
    ((pending 0x04000000 State.reset).EngineNext ∧ (pending 0x04000000 State.reset).busy = true ∧
      decode Config.standard (pending 0x04000000 State.reset).lcmd = .ok (.alloc 0)) ∧
    ((acceptCommand 0 State.reset).EngineNext ∧ (acceptCommand 0 State.reset).busy = true ∧
      decode Config.standard (acceptCommand 0 State.reset).lcmd = .ok .nop) :=
  ⟨⟨rfl, rfl, by decide⟩, ⟨rfl, rfl, by decide⟩⟩

theorem witness_IllegalWordRaisesIllegal :
    ((pending 0x2C000000 State.reset).EngineNext ∧ (pending 0x2C000000 State.reset).busy = true ∧
      ¬ ∃ r ∈ opcodeTable, r.selects (pending 0x2C000000 State.reset).lcmd = true) ∧
    ((pending 0x00000001 State.reset).EngineNext ∧ (pending 0x00000001 State.reset).busy = true ∧
      ¬ ∃ r ∈ opcodeTable, r.selects (pending 0x00000001 State.reset).lcmd = true) :=
  ⟨⟨rfl, rfl, by decide⟩, ⟨rfl, rfl, by decide⟩⟩

/-- ALLOC v8 on a block with eight registers. -/
def missing : State := pending 0x06000000 (State.resetOf cfg8)

theorem witness_MissingRegisterRaisesIllegal :
    (missing.EngineNext ∧ missing.busy = true ∧ rowD 0x01 ∈ opcodeTable ∧
      (rowD 0x01).selects missing.lcmd = true ∧
      (rowD 0x01).registersExist missing.cfg missing.lcmd = false) ∧
    Config.standard.nv = 16 := ⟨⟨rfl, rfl, by decide, by decide, by decide⟩, rfl⟩

theorem witness_ErrorsWriteOnlyStatus :
    (exec (.alloc 1) (st 1025 ⟨0, 0⟩ ⟨0, 0⟩) =
        .next (after (exec (.alloc 1) (st 1025 ⟨0, 0⟩ ⟨0, 0⟩))) ∧
      (after (exec (.alloc 1) (st 1025 ⟨0, 0⟩ ⟨0, 0⟩))).ecode ≠ .ok) ∧
    (missing.busy = true ∧ engineStep missing = .next (after (engineStep missing)) ∧
      (after (engineStep missing)).ecode ≠ .ok) :=
  ⟨⟨rfl, by decide⟩, ⟨rfl, rfl, by decide⟩⟩

/-- Two accesses the host makes while a command is pending. -/
def polling : State :=
  { acceptCommand 0 State.reset with
    inputs := [.host (Access.ofOffset Config.standard 0x0C .read),
      .host (Access.ofOffset Config.standard 0xFC (.write 1))] }

theorem witness_PendingCommandCompletesAfterTheInputs :
    polling.busy = true ∧ ∀ e ∈ polling.inputs, ∃ a, e = .host a ∧ Accepted a polling := by
  refine ⟨rfl, ?_⟩
  simp only [polling, List.forall_mem_cons, List.not_mem_nil, false_imp_iff, implies_true, and_true]
  exact ⟨⟨_, rfl, by decide⟩, ⟨_, rfl, by decide⟩⟩

theorem witness_NopOnlyCompletes : (fieldsOf 0x00000001).op = 0 ∧ (0x00000001 : Word) ≠ 0 := by decide

theorem witness_AllocGivesTheZeroVector :
    (st 1024 ⟨0, 0⟩ ⟨0, 0⟩).larg.toNat ≤ Config.standard.capBits ∧
      Config.standard.capBits < (st 1025 ⟨0, 0⟩ ⟨0, 0⟩).larg.toNat := by decide

/-- The largest vector the default configuration holds, in V1. -/
def full : State := st 0 ⟨1024, 0x8001⟩ ⟨0, 0⟩

theorem witness_GetlenReadsTheLength : full.Inv ∧ (full.readV 1).len = full.cfg.capBits :=
  ⟨by decide +kernel, rfl⟩

/-- Both readings of the first and of the last position, and both sides beyond them. -/
theorem witness_GetbReadsTheIndexedBit :
    (6 < ((st 6 ⟨7, 89⟩ ⟨0, 0⟩).readV 1).len ∧ (st 6 ⟨7, 89⟩ ⟨0, 0⟩).larg.toInt = 6) ∧
    (0 < ((st 0xFFFFFFF9 ⟨7, 89⟩ ⟨0, 0⟩).readV 1).len ∧
      (st 0xFFFFFFF9 ⟨7, 89⟩ ⟨0, 0⟩).larg.toInt = 0 - ((st 0xFFFFFFF9 ⟨7, 89⟩ ⟨0, 0⟩).readV 1).len) ∧
    (st 0xFFFFFFF8 ⟨7, 89⟩ ⟨0, 0⟩).larg.toInt < -(((st 0xFFFFFFF8 ⟨7, 89⟩ ⟨0, 0⟩).readV 1).len : Int) ∧
    (((st 7 ⟨7, 89⟩ ⟨0, 0⟩).readV 1).len : Int) ≤ (st 7 ⟨7, 89⟩ ⟨0, 0⟩).larg.toInt := by decide

theorem witness_SetbWritesTheIndexedBit :
    ((1 : BitVec 10).toNat ≤ 1 ∧ 3 < ((st 3 ⟨4, 0⟩ ⟨0, 0⟩).readV 1).len ∧
      (st 3 ⟨4, 0⟩ ⟨0, 0⟩).larg.toInt = 3) ∧
    1 < (2 : BitVec 10).toNat ∧
    ((0 : BitVec 10).toNat ≤ 1 ∧
      (((st 4 ⟨4, 0⟩ ⟨0, 0⟩).readV 1).len : Int) ≤ (st 4 ⟨4, 0⟩ ⟨0, 0⟩).larg.toInt) := by decide

theorem witness_FillSetsEveryBit : (1 : BitVec 10).toNat ≤ 1 ∧ 1 < (2 : BitVec 10).toNat := by decide

theorem witness_PadlAddsZerosOnTheLeft :
    ((st 1021 ⟨3, 5⟩ ⟨0, 0⟩).readV 1).len + (st 1021 ⟨3, 5⟩ ⟨0, 0⟩).larg.toNat ≤
        Config.standard.capBits ∧
      Config.standard.capBits <
        ((st 1022 ⟨3, 5⟩ ⟨0, 0⟩).readV 1).len + (st 1022 ⟨3, 5⟩ ⟨0, 0⟩).larg.toNat := by decide

/-- Word 1 holds the last bit of 17; word 2 does not exist. -/
theorem witness_RdwReadsTheStorageWord :
    ((st 1 ⟨17, 1⟩ ⟨0, 0⟩).Inv ∧ (st 1 ⟨17, 1⟩ ⟨0, 0⟩).larg.toNat * (st 1 ⟨17, 1⟩ ⟨0, 0⟩).cfg.w <
        ((st 1 ⟨17, 1⟩ ⟨0, 0⟩).readV 1).len) ∧
    ((st 2 ⟨32, 1⟩ ⟨0, 0⟩).Inv ∧ ((st 2 ⟨32, 1⟩ ⟨0, 0⟩).readV 1).len ≤
        (st 2 ⟨32, 1⟩ ⟨0, 0⟩).larg.toNat * (st 2 ⟨32, 1⟩ ⟨0, 0⟩).cfg.w) :=
  ⟨⟨by decide, by decide⟩, ⟨by decide, by decide⟩⟩

theorem witness_WrwWritesTheStorageWord :
    ((st 0 ⟨1, 0⟩ ⟨0, 0⟩).Inv ∧ (st 0 ⟨1, 0⟩ ⟨0, 0⟩).larg.toNat * (st 0 ⟨1, 0⟩ ⟨0, 0⟩).cfg.w <
        ((st 0 ⟨1, 0⟩ ⟨0, 0⟩).readV 1).len) ∧
    ((st 0 ⟨0, 0⟩ ⟨0, 0⟩).Inv ∧ ((st 0 ⟨0, 0⟩ ⟨0, 0⟩).readV 1).len ≤
        (st 0 ⟨0, 0⟩ ⟨0, 0⟩).larg.toNat * (st 0 ⟨0, 0⟩ ⟨0, 0⟩).cfg.w) :=
  ⟨⟨by decide, by decide⟩, ⟨by decide, by decide⟩⟩

theorem witness_RdbReadsTheByte :
    (((st 1 ⟨16, 5⟩ ⟨0, 0⟩).readV 1).len % 8 = 0 ∧
      (st 1 ⟨16, 5⟩ ⟨0, 0⟩).larg.toNat < ((st 1 ⟨16, 5⟩ ⟨0, 0⟩).readV 1).len / 8) ∧
    ((st 0 ⟨7, 5⟩ ⟨0, 0⟩).readV 1).len % 8 ≠ 0 ∧
    (((st 2 ⟨16, 5⟩ ⟨0, 0⟩).readV 1).len % 8 = 0 ∧
      ((st 2 ⟨16, 5⟩ ⟨0, 0⟩).readV 1).len / 8 ≤ (st 2 ⟨16, 5⟩ ⟨0, 0⟩).larg.toNat) := by decide

theorem witness_GetbReadsBackSetb :
    ∃ s t u : State, exec (.setb 1 1) s = .next t ∧ t.ecode = .ok ∧ exec (.getb 1) t = .next u :=
  ⟨st 2 ⟨4, 0⟩ ⟨0, 0⟩, _, _, rfl, rfl, rfl⟩

theorem witness_RdwReadsBackWrw :
    ∃ s t u : State, s.Inv ∧ exec (.wrw 1) s = .next t ∧ t.ecode = .ok ∧ exec (.rdw 1) t = .next u :=
  ⟨{ st 1 ⟨20, 0⟩ ⟨0, 0⟩ with ldata := 0xFFFF }, _, _, by decide, rfl, rfl, rfl⟩

theorem witness_BinaryOpsPadOnTheLeft :
    ∃ s t : State, s.Inv ∧ exec (.xor 2 1 2) s = .next t :=
  ⟨st 0 ⟨4, 11⟩ ⟨3, 6⟩, _, by decide, rfl⟩

theorem witness_NotInvertsEveryBit :
    ∃ s t u : State, s.Inv ∧ exec (.not 2 1) s = .next t ∧ exec (.not 3 2) t = .next u :=
  ⟨st 0 ⟨7, 82⟩ ⟨0, 0⟩, _, _, by decide, rfl, rfl⟩

/-- For the five statements about a shift's result: an empty register, length 1 with the most negative
count, and length 5 with a count beyond it. -/
theorem witness_shift_statements :
    ((st 0 ⟨0, 0⟩ ⟨0, 0⟩).Inv ∧ ((st 0 ⟨0, 0⟩ ⟨0, 0⟩).readV 1).len = 0) ∧
    ((st 0x80000000 ⟨1, 1⟩ ⟨0, 0⟩).Inv ∧ ((st 0x80000000 ⟨1, 1⟩ ⟨0, 0⟩).readV 1).len ≠ 0 ∧
      (st 0x80000000 ⟨1, 1⟩ ⟨0, 0⟩).larg.toInt = -2147483648) ∧
    ((st 7 ⟨5, 22⟩ ⟨0, 0⟩).Inv ∧ ((st 7 ⟨5, 22⟩ ⟨0, 0⟩).readV 1).len ≠ 0 ∧
      0 ≤ (st 7 ⟨5, 22⟩ ⟨0, 0⟩).larg.toInt) :=
  ⟨⟨by decide, by decide⟩, ⟨by decide, by decide, by decide⟩, ⟨by decide, by decide, by decide⟩⟩

/-- Every clause of the shift laws, the last at n = L. -/
theorem witness_ShiftLaws :
    ∃ s t1 t2 t3 u1 u2 u3 u4 u5 : State, s.Inv ∧ (s.readV 1).len ≠ 0 ∧
      exec (.rotl 1) s = .next t1 ∧ exec (.rotr 1) t1 = .next u1 ∧
      exec (.rotl 1) { s with larg := BitVec.ofInt 32 (s.larg.toInt % (s.readV 1).len) } = .next u2 ∧
      exec (.rotr 1) { s with
        larg := BitVec.ofInt 32 ((s.readV 1).len - s.larg.toInt % (s.readV 1).len) } = .next u3 ∧
      exec (.rotr 1) s = .next t2 ∧ exec (.rotl 1) t2 = .next u4 ∧
      exec (.shl 1) s = .next t3 ∧ 0 ≤ s.larg.toInt ∧ s.larg.toInt ≤ (s.readV 1).len ∧
      exec (.shr 1) t3 = .next u5 :=
  ⟨st 5 ⟨5, 22⟩ ⟨0, 0⟩, _, _, _, _, _, _, _, _, by decide, by decide, rfl, rfl, rfl, rfl, rfl, rfl, rfl,
    by decide, by decide, rfl⟩

theorem witness_LoopBoundsAreEnough : (0x11B : Nat) ≠ 0 ∧ deg 0x2B79 + 1 ≤ 14 ∧ deg 0x11B + 1 ≤ 9 := by
  decide

theorem witness_PgcdIsTheGreatestCommonDivisor :
    (0b1010 : Nat) ≠ 0 ∧ PolyDvd 0b11 0b110 ∧ PolyDvd 0b11 0b1010 :=
  ⟨by decide, ⟨0b10, by decide⟩, ⟨0b110, by decide⟩⟩

/-- For ModulusChecksComeInOrder, GfdivDividesWithRemainder, GfmulmodReducesTheProduct and GFINV's: V2 as
the modulus: one bit too long, zero, the field too large, and all checks passed at their
bounds. -/
theorem witness_modulus_statements :
    ((st 7 ⟨8, 1⟩ ⟨9, 0x11B⟩).Inv ∧
      (st 7 ⟨8, 1⟩ ⟨9, 0x11B⟩).larg.toNat + 1 < ((st 7 ⟨8, 1⟩ ⟨9, 0x11B⟩).readV 2).len) ∧
    ((st 8 ⟨8, 1⟩ ⟨9, 0⟩).Inv ∧
      ((st 8 ⟨8, 1⟩ ⟨9, 0⟩).readV 2).len ≤ (st 8 ⟨8, 1⟩ ⟨9, 0⟩).larg.toNat + 1 ∧
      ((st 8 ⟨8, 1⟩ ⟨9, 0⟩).readV 2).val = 0) ∧
    ((st 1025 ⟨8, 1⟩ ⟨9, 1⟩).Inv ∧
      ((st 1025 ⟨8, 1⟩ ⟨9, 1⟩).readV 2).len ≤ (st 1025 ⟨8, 1⟩ ⟨9, 1⟩).larg.toNat + 1 ∧
      ((st 1025 ⟨8, 1⟩ ⟨9, 1⟩).readV 2).val ≠ 0 ∧
      (st 1025 ⟨8, 1⟩ ⟨9, 1⟩).cfg.capBits < (st 1025 ⟨8, 1⟩ ⟨9, 1⟩).larg.toNat) ∧
    ((st 8 ⟨8, 1⟩ ⟨9, 0x11B⟩).Inv ∧ ModulusPasses 2 (st 8 ⟨8, 1⟩ ⟨9, 0x11B⟩)) ∧
    ((st 1024 ⟨8, 1⟩ ⟨9, 1⟩).Inv ∧ ModulusPasses 2 (st 1024 ⟨8, 1⟩ ⟨9, 1⟩)) :=
  ⟨by decide, by decide, by decide, ⟨by decide, by decide, by decide, by decide⟩,
    ⟨by decide, by decide, by decide, by decide⟩⟩

theorem witness_GfmulIsTheCarryFreeProduct :
    ((st 0 ⟨512, 1⟩ ⟨512, 1⟩).Inv ∧ ((st 0 ⟨512, 1⟩ ⟨512, 1⟩).readV 1).len +
        ((st 0 ⟨512, 1⟩ ⟨512, 1⟩).readV 2).len ≤ (st 0 ⟨512, 1⟩ ⟨512, 1⟩).cfg.capBits ∧
      ((st 0 ⟨512, 1⟩ ⟨512, 1⟩).readV 1).val ≠ 0 ∧ ((st 0 ⟨512, 1⟩ ⟨512, 1⟩).readV 2).val ≠ 0) ∧
    ((st 0 ⟨512, 1⟩ ⟨513, 1⟩).Inv ∧ (st 0 ⟨512, 1⟩ ⟨513, 1⟩).cfg.capBits <
        ((st 0 ⟨512, 1⟩ ⟨513, 1⟩).readV 1).len + ((st 0 ⟨512, 1⟩ ⟨513, 1⟩).readV 2).len) :=
  ⟨⟨by decide +kernel, by decide, by decide, by decide⟩, ⟨by decide +kernel, by decide⟩⟩

theorem witness_GfinvGivesTheInverseOrNoinv :
    ((st 3 ⟨3, 6⟩ ⟨4, 10⟩).Inv ∧ ModulusPasses 2 (st 3 ⟨3, 6⟩ ⟨4, 10⟩) ∧ pgcd 6 10 ≠ 1) ∧
    ((st 8 ⟨8, 0x53⟩ ⟨9, 0x11B⟩).Inv ∧ ModulusPasses 2 (st 8 ⟨8, 0x53⟩ ⟨9, 0x11B⟩) ∧
      pgcd 0x53 0x11B = 1 ∧ 1 ≤ deg 0x11B ∧ Reduced 0xCA 0x11B ∧
      pmod (clmul 0x53 0xCA) 0x11B = pmod 1 0x11B) :=
  ⟨⟨by decide, ⟨by decide, by decide, by decide⟩, by decide⟩,
    ⟨by decide, ⟨by decide, by decide, by decide⟩, by decide, by decide, Or.inr (by decide), by decide⟩⟩

theorem witness_NoinvExactlyWhenNoInverseExists :
    ∃ s t : State, ModulusPasses 2 s ∧ exec (.gfinv 3 1 2) s = .next t :=
  ⟨st 3 ⟨3, 6⟩ ⟨4, 10⟩, after (exec (.gfinv 3 1 2) (st 3 ⟨3, 6⟩ ⟨4, 10⟩)),
    ⟨by decide, by decide, by decide⟩, rfl⟩

/-- A CMD write while idle, one while busy, and a read that keeps a command pending. -/
theorem witness_CmdWriteIsAcceptedOrOverruns :
    ((withHost State.reset 0x10 (.write 0)).inputs =
        .host (Access.ofOffset (withHost State.reset 0x10 (.write 0)).cfg 0x10 (.write 0)) :: [] ∧
      (withHost State.reset 0x10 (.write 0)).rst = false ∧
      (withHost State.reset 0x10 (.write 0)).busy = false) ∧
    (withHost (acceptCommand 0 State.reset) 0x10 (.write 0)).busy = true ∧
    ∃ t, step (withHost (acceptCommand 0 State.reset) 0x0C .read) = .next t ∧ t.busy = true :=
  ⟨⟨rfl, rfl, rfl⟩, rfl, _, rfl, rfl⟩

theorem witness_ReadsAnswerTheRegisterMap :
    State.reset.cfg.Legal ∧ 0xFC < 256 ∧ 0xFC % 4 = 0 ∧
      (withHost State.reset 0xFC .read).inputs =
        .host (Access.ofOffset State.reset.cfg 0xFC .read) :: [] ∧
      (withHost State.reset 0xFC .read).rst = false := ⟨by decide, by decide, by decide, rfl, rfl⟩

theorem witness_WritesFollowTheRegisterMap :
    0x18 < 256 ∧ 0x18 % 4 = 0 ∧ 0x18 ≠ 0x10 ∧
      (withHost State.reset 0x18 (.write 7)).inputs =
        .host (Access.ofOffset State.reset.cfg 0x18 (.write 7)) :: [] ∧
      (withHost State.reset 0x18 (.write 7)).rst = false :=
  ⟨by decide, by decide, by decide, rfl, rfl⟩

/-- The last register of the window is accepted; the first address beyond it, a 16-bit access, an
offset that is no multiple of 4, a burst, and any access during reset are not. -/
theorem witness_RefusedAccessFaultsAndChangesNothing :
    Accepted ⟨.read, .bits32, 0xFC⟩ State.reset ∧ ¬ Accepted ⟨.read, .bits32, 0x100⟩ State.reset ∧
      ¬ Accepted ⟨.write 0, .bits16, 0x14⟩ State.reset ∧
      ¬ Accepted ⟨.read, .bits32, 0x06⟩ State.reset ∧ ¬ Accepted ⟨.read, .burst, 0⟩ State.reset ∧
      ¬ Accepted ⟨.read, .bits32, 0⟩ { State.reset with rst := true } := by decide

/-- For BusyAndAtomicCommit, DoneRisesAtCompletion, OnlyCmpWritesCompareFlags, OnlyGfinvWritesNoinv,
EcodeErrAndOvrRules and IrqRisesAndFalls: an acceptance, a completion of CMP and of GFINV, a STATUS write,
a CTRL write and a reset, each a step that answers a next state. -/
theorem witness_whole_machine_statements :
    (HostWrites 0x10 0 (withHost State.reset 0x10 (.write 0)) ∧
      ∃ t, step (withHost State.reset 0x10 (.write 0)) = .next t ∧ t.busy = true) ∧
    (Completes (.cmp 9 12) (pending 0x50270000 State.reset) ∧
      ∃ t, step (pending 0x50270000 State.reset) = .next t ∧ ¬ SameCompareFlags State.reset t) ∧
    (Completes (.gfinv 3 1 2) (pending 0x8CC48000 { st 0 ⟨3, 6⟩ ⟨4, 10⟩ with arg := 3 }) ∧
      ∃ t, step (pending 0x8CC48000 { st 0 ⟨3, 6⟩ ⟨4, 10⟩ with arg := 3 }) = .next t ∧
        t.noinv ≠ State.reset.noinv ∧ t.ecode = .ok) ∧
    (HostWrites 0x0C 0xC2 (withHost { State.reset with done := true, err := true } 0x0C (.write 0xC2)) ∧
      ∃ t, step (withHost { State.reset with done := true, err := true } 0x0C (.write 0xC2)) = .next t ∧
        t.done = false ∧ t.err = false) ∧
    (HostWrites 0x08 1 (withHost { State.reset with done := true } 0x08 (.write 1)) ∧
      ∃ t, step (withHost { State.reset with done := true } 0x08 (.write 1)) = .next t ∧ irq t = true) ∧
    (ResetNext { acceptCommand 0 State.reset with inputs := [.assertReset] } ∧
      ∃ t, step { acceptCommand 0 State.reset with inputs := [.assertReset] } = .next t ∧
        t.busy = false) := by
  refine ⟨⟨⟨[], rfl, rfl⟩, _, rfl, rfl⟩, ⟨⟨rfl, rfl, by decide⟩, _, rfl, fun h => ?_⟩,
    ⟨⟨rfl, rfl, by decide⟩, after (step (pending 0x8CC48000 { st 0 ⟨3, 6⟩ ⟨4, 10⟩ with arg := 3 })), rfl,
      by decide, by decide⟩,
    ⟨⟨[], rfl, rfl⟩, _, rfl, rfl, rfl⟩, ⟨⟨[], rfl, rfl⟩, _, rfl, rfl⟩, ⟨⟨[], rfl⟩, _, rfl, rfl⟩⟩
  exact absurd h.1 (by decide)

/-- For OnlyReadCommandsWriteResult and VectorsChangeOnlyAtCompletion: RESULT and a vector register change
at a completion. -/
theorem witness_completion_statements :
    (∃ t, step (pending 0x0C040000 (st 0 ⟨3, 5⟩ ⟨0, 0⟩)) = .next t ∧ t.result ≠ State.reset.result ∧
      t.ecode = .ok) ∧
    (∃ t, step (pending 0x18400001 (st 0 ⟨3, 5⟩ ⟨0, 0⟩)) = .next t ∧
      t.vectors ≠ (st 0 ⟨3, 5⟩ ⟨0, 0⟩).vectors ∧ t.ecode = .ok) :=
  ⟨⟨after (step (pending 0x0C040000 (st 0 ⟨3, 5⟩ ⟨0, 0⟩))), rfl, by decide, by decide⟩,
    ⟨after (step (pending 0x18400001 (st 0 ⟨3, 5⟩ ⟨0, 0⟩))), rfl, by decide, by decide⟩⟩

/-- A word that does not decode ends with ILLEGAL and raises ERR; a CMD write while BUSY raises OVR; a
STATUS write clears OVR. -/
theorem witness_EcodeErrAndOvrRules :
    ((pending 0x2C000000 State.reset).EngineNext ∧ (pending 0x2C000000 State.reset).busy = true ∧
      (∀ i, ¬ Completes i (pending 0x2C000000 State.reset)) ∧
      ∃ t, step (pending 0x2C000000 State.reset) = .next t ∧ t.ecode = .illegal ∧ t.err = true) ∧
    (∃ t, step (withHost (acceptCommand 0 State.reset) 0x10 (.write 0)) = .next t ∧ t.ovr = true) ∧
    (∃ t, step (withHost { State.reset with ovr := true } 0x0C (.write 0x80)) = .next t ∧
      t.ovr = false) := by
  refine ⟨⟨rfl, rfl, fun i h => ?_, _, rfl, rfl, rfl⟩, ⟨_, rfl, rfl⟩, ⟨_, rfl, rfl⟩⟩
  have := h.2.2
  rw [show decode (pending 0x2C000000 State.reset).cfg (pending 0x2C000000 State.reset).lcmd =
    .error .undefinedOpcode by decide] at this
  cases this

/-- irq rises at a completion with IE = 1, and falls at a CTRL write that clears IE. -/
theorem witness_IrqRisesAndFalls :
    (irq { pending 0 State.reset with ie := true } = false ∧
      ∃ t, step { pending 0 State.reset with ie := true } = .next t ∧ irq t = true) ∧
    (irq (withHost { State.reset with ie := true, done := true } 0x08 (.write 0)) = true ∧
      ∃ t, step (withHost { State.reset with ie := true, done := true } 0x08 (.write 0)) = .next t ∧
        irq t = false) :=
  ⟨⟨rfl, _, rfl, rfl⟩, ⟨rfl, _, rfl, rfl⟩⟩

theorem witness_LaterArgAndDataDoNotMatter :
    State.reset.busy = false ∧ ∃ t, exec (.wrw 1) (st 0 ⟨3, 5⟩ ⟨0, 0⟩) = .next t :=
  ⟨rfl, _, rfl⟩

/-- Two states that differ in V9, which MOV v2, v1 does not name. -/
theorem witness_CommandsSeeOnlyTheirRegisters :
    ∃ s s' t t' : State, s' = { s with vectors := s'.vectors } ∧
      (∀ r ∈ (Instr.mov 2 1).regs, s'.readV r = s.readV r) ∧ s'.readV 9 ≠ s.readV 9 ∧
      exec (.mov 2 1) s = .next t ∧ exec (.mov 2 1) s' = .next t' :=
  ⟨st 0 ⟨3, 5⟩ ⟨0, 0⟩, (st 0 ⟨3, 5⟩ ⟨0, 0⟩).writeV 9 ⟨1, 1⟩, _, _, rfl, by decide, by decide, rfl, rfl⟩

theorem witness_ResetClearsEveryRegister :
    ResetNext { full with inputs := [.assertReset] } := ⟨[], rfl⟩

/-- A pending command and the assertion of `rst`; then, with `rst` asserted, an access and the release. -/
theorem witness_ResetDiscardsThePendingCommand :
    (ResetNext { polling with inputs := [.assertReset] } ∧
      ∃ t, step { polling with inputs := [.assertReset] } = .next t) ∧
    (State.AtResetValues { State.reset with rst := true, inputs := [.host ⟨.read, .bits32, 0⟩] } ∧
      State.AtResetValues { State.reset with rst := true, inputs := [.releaseReset] } ∧
      ∃ t, step { State.reset with rst := true, inputs := [.releaseReset] } = .next t ∧ t.rst = false) :=
  ⟨⟨⟨[], rfl⟩, _, rfl⟩, by decide, by decide, _, rfl, rfl⟩

theorem witness_InvariantHoldsAtReset :
    Config.Legal ⟨8, 1, 1, 0⟩ ∧ Config.Legal ⟨32, 1024, 16, 0xFFFFFF00⟩ := by decide

/-- A state with all the invariant speaks of in use, and a step from it. -/
theorem witness_StepKeepsTheInvariant :
    State.Inv { pending 0x50270000 full with eq := true } ∧
      ∃ t, step { pending 0x50270000 full with eq := true } = .next t :=
  ⟨by decide +kernel, _, rfl⟩

end Sys2Proof.Tests
end

section
/-! PROOFS. Family 00_scope: every step keeps the invariant, a storage word is read back as written, the
GF loops end within their bounds, and pgcd is the greatest common divisor. -/

namespace Sys2Proof.Machine

/-! ## The invariant (R9, R43, R44, R281) -/

/-- With `rst` released nothing is claimed of the reset values. -/
theorem heldInReset_of_released {s : State} (h : s.rst = false) : s.HeldInReset :=
  fun hr => absurd (h.symm.trans hr) Bool.false_ne_true

/-- A command is pending only while `rst` is released. -/
theorem rst_eq_false_of_busy {s : State} (hs : s.HeldInReset) (hb : s.busy = true) :
    s.rst = false := by
  by_contra hr
  obtain ⟨-, -, hidle, -⟩ := hs (by simpa using hr)
  simp [hidle] at hb

theorem resetOf_atResetValues (c : Config) : (State.resetOf c).AtResetValues :=
  ⟨readV_resetOf c, rfl, rfl, rfl, rfl, rfl, rfl, rfl, rfl, rfl, rfl, rfl, rfl, rfl, rfl⟩

theorem assertReset_inv {s : State} (hc : s.cfg.Legal) : (assertReset s).Inv :=
  ⟨hc, resetOf_vectors_wf s.cfg, ⟨rfl, rfl, rfl⟩, rfl, fun _ => resetOf_atResetValues s.cfg⟩

theorem compareFlags_exclusive (a b : Vec) (s : State) : (compareFlags a b s).FlagsExclusive := by
  simp only [State.FlagsExclusive, compareFlags_eq, compareFlags_lt, compareFlags_gt,
    Bool.and_eq_false_iff, decide_eq_false_iff_not]
  omega

/-- A command ends with BUSY = 0 and DONE = 1 and leaves the host's side alone (R240). -/
theorem exec_ends {i : Instr} {s t : State} (h : exec i s = .next t) :
    t.busy = false ∧ t.done = true ∧ SameHostSide s t := by
  rcases exec_cases i s with ⟨e, -, he⟩ | ⟨m, r, q, l, g, n, he⟩
  all_goals
    obtain rfl := Host.Outcome.next.inj (he.symm.trans h)
    exact ⟨rfl, rfl, by simp [SameHostSide]⟩

/-- Only CMP writes the comparison flags, and it sets at most one (R44, R167). -/
theorem exec_keeps_flagsExclusive {i : Instr} {s t : State} (hs : s.FlagsExclusive)
    (h : exec i s = .next t) : t.FlagsExclusive := by
  rcases (exec_writes h).1 with ⟨heq, hlt, hgt⟩ | ⟨va, vb, rfl⟩
  · simpa only [State.FlagsExclusive, heq, hlt, hgt] using hs
  · obtain rfl := (complete_eq_next _ _).1 h
    exact compareFlags_exclusive (s.readV va) (s.readV vb) s

/-- The completion of a decoded command keeps the invariant. -/
theorem exec_keeps_inv {i : Instr} {s t : State} (hs : s.Inv) (hb : s.busy = true)
    (hw : i.wellFormed s.cfg = true) (h : exec i s = .next t) : t.Inv := by
  obtain ⟨hc, hm, hf, -, hr⟩ := hs
  obtain ⟨hbusy, -, hcfg, -, -, -, -, -, -, -, hrst, -⟩ := exec_ends h
  refine ⟨hcfg ▸ hc, hcfg ▸ exec_keeps_wf hm hw h, exec_keeps_flagsExclusive hf h, by simp [hbusy],
    heldInReset_of_released (hrst.trans (rst_eq_false_of_busy hr hb))⟩

/-- Settles O60, by the ways a step can end: a command's completion is `exec_keeps_inv`, the assertion of
`rst` is `assertReset_inv`, and no other event writes the configuration, the storage or the comparison
flags. -/
theorem stepKeepsTheInvariant : Obligations.StepKeepsTheInvariant := by
  intro s t hs h
  have ⟨hc, hm, hf, hbd, hr⟩ := hs
  obtain ⟨v, ⟨-, rfl⟩ | ⟨x, ⟨_, -, hrst⟩, rfl⟩ | ⟨x, ⟨_, -, hrst⟩, rfl⟩ | ⟨x, ⟨_, -, hrst⟩, -, rfl⟩ |
    ⟨x, ⟨_, -, hrst⟩, -, rfl⟩ | ⟨x, ⟨_, -, hrst⟩, rfl⟩ | ⟨x, ⟨_, -, hrst⟩, rfl⟩ |
    ⟨i, ⟨-, hb, hd⟩, hx⟩ | ⟨-, hb, -, rfl⟩ | ⟨-, rfl⟩ | ⟨-, rfl⟩⟩ := step_next_cases h
  -- a read, an ignored write or an idle turn; then the writes of CTRL, STATUS, CMD (two), ARG and DATA
  · exact hs
  · exact ⟨hc, hm, hf, hbd, heldInReset_of_released hrst⟩
  · refine ⟨hc, hm, hf, ?_, heldInReset_of_released hrst⟩
    simp only [clearStatus_busy, clearStatus_done, ← Bool.and_assoc, hbd, Bool.false_and]
  · exact ⟨hc, hm, hf, hbd, heldInReset_of_released hrst⟩
  · exact ⟨hc, hm, hf, rfl, heldInReset_of_released hrst⟩
  · exact ⟨hc, hm, hf, hbd, heldInReset_of_released hrst⟩
  · exact ⟨hc, hm, hf, hbd, heldInReset_of_released hrst⟩
  -- the end of a command, and of an illegal word; then the two changes of `rst`
  · exact exec_keeps_inv (s := { s with inputs := s.inputs.tail }) hs hb (decode_eq_ok.1 hd).2.2 hx
  · exact ⟨hc, hm, hf, rfl, heldInReset_of_released (rst_eq_false_of_busy (s := s) hr hb)⟩
  · exact assertReset_inv hc
  · exact ⟨hc, hm, hf, hbd, heldInReset_of_released rfl⟩

/-! ## A storage word written and read back (R130, R131) -/

/-- WRW completes with OK only where the storage word exists, and then writes it. -/
theorem execWrw_ok {vd : Reg} {s t : State} (h : exec (.wrw vd) s = .next t) (hok : t.ecode = .ok) :
    argU s < (s.readV vd).nwords s.cfg.w ∧
      t = (s.writeV vd ((s.readV vd).wordWrite s.cfg.w (argU s) s.ldata.toNat)).completed := by
  simp only [exec, execWrw] at h
  split at h
  · obtain rfl := (raise_eq_next _ _ _).1 h
    cases hok
  · next hk => exact ⟨not_le.1 hk, (complete_eq_next _ _).1 h⟩

/-- RDW of a storage word that exists completes with OK and reads it. -/
theorem execRdw_of_lt {va : Reg} {s t : State} (h : exec (.rdw va) s = .next t)
    (hk : argU s < (s.readV va).nwords s.cfg.w) :
    t = (s.writeResult ((s.readV va).wordRead s.cfg.w (argU s))).completed := by
  simp only [exec, execRdw, if_neg (not_le.2 hk)] at h
  exact (complete_eq_next _ _).1 h

/-- Writing a storage word keeps the number of words. -/
@[simp] theorem nwords_wordWrite (w : Nat) (v : Vec) (k d : Nat) :
    (v.wordWrite w k d).nwords w = v.nwords w := by
  simp only [Vec.nwords, wordWrite_len]

/-- The word read back is the word written, without the bits at or above W and beyond the length. -/
theorem testBit_wordRead_wordWrite (w : Nat) (v : Vec) (k d j : Nat) :
    ((v.wordWrite w k d).wordRead w k).testBit j =
      (d.testBit j && (decide (j < w) && decide (k * w + j < v.len))) := by
  rw [testBit_wordRead, wordWrite_len]
  by_cases hj : j < w
  · by_cases hp : k * w + j < v.len
    · rw [bit_wordWrite w v k d _ hp, if_pos (by omega), Nat.add_sub_cancel_left]
      simp [hj, hp]
    · simp [hp]
  · simp [hj]

/-- A storage word is at most 32 bits wide (R5). -/
theorem w_le_of_legal {c : Config} (h : c.Legal) : c.w ≤ 32 := by
  obtain ⟨hw, -⟩ := h
  omega

/-- Settles O23: RDW finds the word WRW wrote, and RESULT holds all of its W bits. -/
theorem rdwReadsBackWrw : Obligations.RdwReadsBackWrw := by
  intro s t u vd hs hw hok hr
  obtain ⟨hk, rfl⟩ := execWrw_ok hw hok
  obtain rfl := execRdw_of_lt hr (by simpa using hk)
  refine ⟨rfl, fun j => ?_⟩
  have hw32 : s.cfg.w ≤ 32 := w_le_of_legal hs.1
  have hread := testBit_wordRead_wordWrite s.cfg.w (s.readV vd) (argU s) s.ldata.toNat j
  simp only [completed_result, writeResult_result, BitVec.getLsbD_ofNat, readV_completed,
    readV_writeV_same, completed_cfg, writeV_cfg, argU_completed, argU_writeV, hread,
    BitVec.testBit_toNat]
  by_cases hj : j < s.cfg.w
  · rw [decide_eq_true (lt_of_lt_of_le hj hw32), Bool.true_and, argU]
  · simp [hj]

/-! ## The loops end by their own test (R14, R15, R206, logs 14 and 17) -/

/-- Each pass lowers the degree, so a bound at the number of bits of the remainder is as good as any
larger one. -/
theorem pdivLoop_of_le {m : Nat} (hm : m ≠ 0) {n n' : Nat} (hn : n ≤ n') {r : Nat} (q : Nat)
    (hr : r < 2 ^ n) : pdivLoop m n' q r = pdivLoop m n q r := by
  induction n generalizing n' q r with
  | zero =>
    obtain rfl : r = 0 := by simpa using hr
    simp only [pdivLoop_zero]
  | succ n ih =>
    obtain ⟨k, rfl⟩ : ∃ k, n' = k + 1 := ⟨n' - 1, by omega⟩
    simp only [pdivLoop]
    split
    · next h =>
      obtain ⟨h0, hd⟩ := h
      have hdeg : deg r ≤ n := Nat.le_of_lt_succ (deg_lt_of_lt h0 hr)
      exact ih (by omega) _
        (lt_of_lt_of_le (pass_lt hm h0 hd) (Nat.pow_le_pow_right (by omega) hdeg))
    · rfl

/-- The remainder sequence has stopped at 0: no further pass, whatever the bound. -/
@[simp] theorem euclidLoop_zero (m n a s t : Nat) : euclidLoop m n a 0 s t = (a, s) := by
  cases n <;> simp [euclidLoop]

/-- Each division lowers the degree, so a bound at the number of bits of the divisor is as good as any
larger one. -/
theorem euclidLoop_of_le (m : Nat) {n n' : Nat} (hn : n ≤ n') {b : Nat} (a s t : Nat)
    (hb : b < 2 ^ n) : euclidLoop m n' a b s t = euclidLoop m n a b s t := by
  induction n generalizing n' a b s t with
  | zero =>
    obtain rfl : b = 0 := by simpa using hb
    simp only [euclidLoop_zero]
  | succ n ih =>
    obtain ⟨k, rfl⟩ : ∃ k, n' = k + 1 := ⟨n' - 1, by omega⟩
    simp only [euclidLoop]
    split
    · next h =>
      have hdeg : deg b ≤ n := Nat.le_of_lt_succ (deg_lt_of_lt h hb)
      exact ih (by omega) _ _ _
        (lt_of_lt_of_le (pmod_lt_two_pow_deg h a) (Nat.pow_le_pow_right (by omega) hdeg))
    · rfl

/-- The gcd loop is the first track of the extended Euclid loop, so it ends with it. -/
theorem pgcdLoop_of_le {n n' : Nat} (hn : n ≤ n') {b : Nat} (a : Nat) (hb : b < 2 ^ n) :
    pgcdLoop n' a b = pgcdLoop n a b := by
  rw [← euclidLoop_fst 0 n' a b 0 0, euclidLoop_of_le 0 hn a 0 0 hb, euclidLoop_fst]

/-- Settles O34: a nonzero operand of degree `d` has `d + 1` bits, the bound from which each loop no
longer depends on it. -/
theorem loopBoundsAreEnough : Obligations.LoopBoundsAreEnough := fun x m _ hm =>
  ⟨fun hn => pdivLoop_of_le hm hn 0 (deg_lt x),
    fun hn => ⟨pgcdLoop_of_le hn x (deg_lt m), euclidLoop_of_le m hn x 1 0 (deg_lt m)⟩⟩

/-! ## Every common divisor divides the gcd (R15) -/

/-- The remainder as a sum of multiples of the modulus and the dividend (R14). -/
theorem clmul_pdiv_xor {b : Nat} (hb : b ≠ 0) (a : Nat) :
    clmul (pdiv a b) b ^^^ a = pmod a b :=
  calc clmul (pdiv a b) b ^^^ a
      = clmul (pdiv a b) b ^^^ (clmul (pdiv a b) b ^^^ pmod a b) := by rw [clmul_pdiv_xor_pmod hb]
    _ = pmod a b := by rw [← Nat.xor_assoc, Nat.xor_self, Nat.zero_xor]

/-- A divisor of dividend and modulus divides the remainder. -/
theorem polyDvd_pmod {d a b : Nat} (hb : b ≠ 0) (ha : PolyDvd d a) (hd : PolyDvd d b) :
    PolyDvd d (pmod a b) :=
  clmul_pdiv_xor hb a ▸ polyDvd_xor (polyDvd_clmul (pdiv a b) hd) ha

/-- The loop keeps every common divisor of its two operands. -/
theorem polyDvd_pgcdLoop {d : Nat} (n : Nat) {a b : Nat} (ha : PolyDvd d a) (hb : PolyDvd d b) :
    PolyDvd d (pgcdLoop n a b) := by
  induction n generalizing a b with
  | zero => exact ha
  | succ n ih =>
    rw [pgcdLoop]
    split
    · exact ha
    · next h => exact ih hb (polyDvd_pmod h ha hb)

/-- Settles O35: `pgcd_dvd` gives the two divisions, `polyDvd_pgcdLoop` that it is the greatest. -/
theorem pgcdIsTheGreatestCommonDivisor : Obligations.PgcdIsTheGreatestCommonDivisor := by
  intro x m _
  obtain ⟨hx, hm⟩ := pgcd_dvd x m
  exact ⟨hx, hm, fun _ => polyDvd_pgcdLoop _, euclid_fst x m⟩

end Sys2Proof.Machine
end

section
/-! PROOFS. Family 10_state: the host interface, and which events change which part of the state. -/

namespace Sys2Proof.Machine

/-! ## The register window (R33 to R41, R64, R66) -/

/-- An aligned 32-bit access inside the window is accepted while `rst` is released (R65). -/
theorem accepted_ofOffset {s : State} {off : Nat} (k : AccessKind) (ho : off < 256)
    (ha : off % 4 = 0) (hr : s.rst = false) : Accepted (Access.ofOffset s.cfg off k) s := by
  refine ⟨hr, rfl, ?_, ?_, ?_⟩ <;> simp only [Access.ofOffset] <;> omega

theorem readRegister_inputs (off : Nat) (s : State) (l : List Event) :
    readRegister off { s with inputs := l } = readRegister off s := rfl

theorem writeRegister_inputs (off : Nat) (x : Word) (s : State) (l : List Event) :
    writeRegister off x { s with inputs := l } = { writeRegister off x s with inputs := l } := by
  rcases writeRegister_cases off x s with
    ⟨rfl, e⟩ | ⟨rfl, e⟩ | ⟨rfl, hb, e⟩ | ⟨rfl, hb, e⟩ | ⟨rfl, e⟩ | ⟨rfl, e⟩ | ⟨h1, h2, h3, h4, h5, e⟩
  all_goals rw [e]
  · rfl
  · rfl
  · simp [writeRegister, offerCommand, hb]
  · simp [writeRegister, offerCommand, hb, acceptCommand]
  · rfl
  · rfl
  · simp [writeRegister]

/-- An accepted access, as a step. -/
theorem step_of_hostNext {s : State} {off : Nat} {k : AccessKind} {rest : List Event}
    (hi : s.inputs = .host (Access.ofOffset s.cfg off k) :: rest) (ho : off < 256)
    (ha : off % 4 = 0) (hr : s.rst = false) :
    step s = .next (match k with
      | .read => { s with inputs := rest, response := some (.data (readRegister off s)) }
      | .write x => { writeRegister off x s with inputs := rest, response := some .ack }) := by
  have hacc : Accepted (Access.ofOffset s.cfg off k) { s with inputs := rest } :=
    accepted_ofOffset (s := { s with inputs := rest }) k ho ha hr
  have hn : nextEvent s = (.host (Access.ofOffset s.cfg off k), { s with inputs := rest }) := by
    simp only [nextEvent, hi]
  simp only [step, hn, perform]
  rcases hostStep_cases (Access.ofOffset s.cfg off k) { s with inputs := rest } with ⟨h, -⟩ | ⟨-, h⟩
  · exact absurd hacc h
  · rw [h, busAccess_of_accepted hacc]
    cases k <;> simp [Access.ofOffset, readRegister_inputs, writeRegister_inputs]

/-- The value of a concatenation: its high part above its low part. -/
theorem toNat_append_eq_add {m n : Nat} (x : BitVec m) (y : BitVec n) :
    (x ++ y).toNat = x.toNat * 2 ^ n + y.toNat := by
  rw [BitVec.toNat_append, ← Nat.shiftLeft_add_eq_or_of_lt y.isLt, Nat.shiftLeft_eq]

/-- The fields of PARAM are wide enough for every legal configuration (R34). -/
theorem paramWord_toNat {c : Config} (h : c.Legal) :
    (paramWord c).toNat = c.capBits + c.w * 2 ^ 16 + c.nv * 2 ^ 24 := by
  obtain ⟨hw, hc, hn, -⟩ := h
  simp only [paramWord, toNat_append_eq_add, BitVec.toNat_ofNat]
  rw [Nat.mod_eq_of_lt (a := c.nv) (by omega), Nat.mod_eq_of_lt (a := c.w) (by omega),
    Nat.mod_eq_of_lt (a := c.capBits) (by omega)]
  omega

theorem ctrlWord_toNat (s : State) : (ctrlWord s).toNat = s.ie.toNat := by
  simp only [ctrlWord, toNat_append_eq_add, BitVec.toNat_ofBool, BitVec.toNat_ofNat]
  omega

theorem statusWord_toNat (s : State) : (statusWord s).toNat =
    s.busy.toNat + 2 * s.done.toNat + 4 * s.eq.toNat + 8 * s.lt.toNat + 16 * s.gt.toNat +
      32 * s.noinv.toNat + 64 * s.err.toNat + 128 * s.ovr.toNat + 256 * s.ecode.code.toNat := by
  simp only [statusWord, toNat_append_eq_add, BitVec.toNat_ofBool, BitVec.toNat_ofNat]
  omega

/-- CMD and the reserved offsets read 0 (R40, R41). -/
theorem readRegister_eq_zero {off : Nat} (s : State) (h : off = 0x10 ∨ 0x20 ≤ off) :
    readRegister off s = 0 := by
  unfold readRegister
  split
  any_goals omega
  rfl

/-- Settles O43: the answer is `readRegister`, and each register's word has its fields' value. -/
theorem readsAnswerTheRegisterMap : Obligations.ReadsAnswerTheRegisterMap := by
  intro s off rest hc ho ha hi hr
  refine ⟨readRegister off s, step_of_hostNext hi ho ha hr, ?_, ?_, ?_, ?_, ?_, ?_, ?_,
    readRegister_eq_zero s⟩
  all_goals rintro rfl
  · rfl
  · exact paramWord_toNat hc
  · exact ctrlWord_toNat s
  · exact statusWord_toNat s
  · rfl
  · rfl
  · rfl

/-- Settles O44: the next state is `writeRegister`'s. -/
theorem writesFollowTheRegisterMap : Obligations.WritesFollowTheRegisterMap := by
  intro s off x rest ho ha hcmd hi hr
  refine ⟨writeRegister off x s, step_of_hostNext hi ho ha hr, ?_, ?_, ?_, ?_, ?_⟩
  · rintro rfl; rfl
  · rintro rfl; rfl
  · rintro rfl; rfl
  · rintro rfl; rfl
  · rintro ⟨h1, h2, h3, h4⟩
    simp [writeRegister, *]

/-! ## One event excludes every other -/

/-- An accepted write is the only event of its step. -/
theorem hostWrites_excludes {off : Nat} {x : Word} {s : State} (h : HostWrites off x s) :
    ¬ s.EngineNext ∧ ¬ ResetNext s ∧ ∀ off' y, HostWrites off' y s ↔ off' = off ∧ y = x := by
  refine ⟨not_engineNext_of_hostWrites h, not_resetNext_of_hostWrites h, fun off' y =>
    ⟨fun h' => hostWrites_unique h' h, ?_⟩⟩
  rintro ⟨rfl, rfl⟩
  exact h

/-- The engine's turn is the only event of its step. -/
theorem engineNext_excludes {s : State} (h : s.EngineNext) :
    ¬ ResetNext s ∧ ∀ off y, ¬ HostWrites off y s :=
  ⟨fun hr => not_engineNext_of_resetNext hr h, fun _ _ hw => not_engineNext_of_hostWrites hw h⟩

/-- The assertion of `rst` is the only event of its step. -/
theorem resetNext_excludes {s : State} (h : ResetNext s) :
    ¬ s.EngineNext ∧ ∀ off y, ¬ HostWrites off y s :=
  ⟨not_engineNext_of_resetNext h, fun _ _ hw => not_resetNext_of_hostWrites hw h⟩

/-- The release of `rst` is the only event of its step. -/
theorem releaseNext_excludes {s : State} (h : ∃ rest, s.inputs = .releaseReset :: rest) :
    ¬ s.EngineNext ∧ ¬ ResetNext s ∧ ∀ off y, ¬ HostWrites off y s := by
  obtain ⟨rest, h⟩ := h
  refine ⟨by simp [State.EngineNext, nextEvent, h], fun ⟨_, h'⟩ => ?_, fun _ _ ⟨_, h', _⟩ => ?_⟩
  all_goals
    rw [h] at h'
    cases h'

/-! ## The six effects of a step -/

/-- No command completes, `rst` is not asserted, and neither STATUS nor CMD is written. -/
def Quiet (s : State) : Prop :=
  ¬ (s.EngineNext ∧ s.busy = true) ∧ ¬ ResetNext s ∧
    ∀ x, ¬ HostWrites 0x0C x s ∧ ¬ HostWrites 0x10 x s

/-- What a step that answers `t` did to the block: `step_next_cases` with the two ends of a command as
one case, and the five events that write neither STATUS nor the vector storage as another. -/
inductive StepEffect (s t : State) : Prop where
  | completion (he : s.EngineNext) (hb : s.busy = true)
      (hx : runCommand { s with inputs := s.inputs.tail } = .next t)
  | reset (hr : ResetNext s) (ht : t = { assertReset s with inputs := s.inputs.tail })
  | clear (x : Word) (hw : HostWrites 0x0C x s) (v : Option BusResponse)
      (ht : t = { clearStatus x s with inputs := s.inputs.tail, response := v })
  | overrun (x : Word) (hw : HostWrites 0x10 x s) (hb : s.busy = true) (v : Option BusResponse)
      (ht : t = { s with inputs := s.inputs.tail, response := v, ovr := true })
  | accept (x : Word) (hw : HostWrites 0x10 x s) (hb : s.busy = false) (v : Option BusResponse)
      (ht : t = { acceptCommand x s with inputs := s.inputs.tail, response := v })
  | quiet (hq : Quiet s) (ie : Bool) (a d : Word) (r : Bool) (v : Option BusResponse)
      (ht : t = { s with
        inputs := s.inputs.tail, response := v, ie := ie, arg := a, data := d, rst := r })

/-- A write to neither STATUS nor CMD is quiet. -/
theorem quiet_of_hostWrites {off : Nat} {x : Word} {s : State} (h : HostWrites off x s)
    (hs : off ≠ 0x0C) (hc : off ≠ 0x10) : Quiet s := by
  obtain ⟨he, hr, hw⟩ := hostWrites_excludes h
  exact ⟨fun ⟨h', _⟩ => he h', hr, fun y => by simp [hw, hs.symm, hc.symm]⟩

/-- A pending word that decodes runs as its command. -/
theorem runCommand_of_decode {i : Instr} {s : State} (h : decode s.cfg s.lcmd = .ok i) :
    runCommand s = exec i s := by
  simp only [runCommand, fetchCommand, h]

/-- A pending word that does not decode raises ILLEGAL (R97, R98). -/
theorem runCommand_of_not_decode {s : State} (h : ∀ i, decode s.cfg s.lcmd ≠ .ok i) :
    runCommand s = .next (s.raised .illegal) := by
  rcases runCommand_cases s with ⟨i, hi, -⟩ | ⟨-, -, hx⟩
  · exact absurd hi (h i)
  · exact hx

/-- Every step that answers a next state has one of the six effects. -/
theorem stepEffect_of_step {s t : State} (h : step s = .next t) : StepEffect s t := by
  obtain ⟨v, ⟨⟨hi, hr, hw⟩, ht⟩ | ⟨x, hw, ht⟩ | ⟨x, hw, ht⟩ | ⟨x, hw, hb, ht⟩ | ⟨x, hw, hb, ht⟩ |
    ⟨x, hw, ht⟩ | ⟨x, hw, ht⟩ | ⟨i, ⟨he, hb, hd⟩, hx⟩ | ⟨he, hb, hd, ht⟩ | ⟨hr, ht⟩ | ⟨hr, ht⟩⟩ :=
    step_next_cases h
  · refine .quiet ⟨fun ⟨he, hb⟩ => by simp [hi he] at hb, hr, fun x => ⟨fun h' => ?_, fun h' => ?_⟩⟩
      s.ie s.arg s.data s.rst v ht
    · obtain ⟨-, hstatus, -⟩ := hw _ x h'
      exact hstatus rfl
    · obtain ⟨-, -, hcmd, -⟩ := hw _ x h'
      exact hcmd rfl
  · exact .quiet (quiet_of_hostWrites hw (by decide) (by decide)) (x.getLsbD 0) s.arg s.data s.rst v ht
  · exact .clear x hw v ht
  · exact .overrun x hw hb v ht
  · exact .accept x hw hb v ht
  · exact .quiet (quiet_of_hostWrites hw (by decide) (by decide)) s.ie x s.data s.rst v ht
  · exact .quiet (quiet_of_hostWrites hw (by decide) (by decide)) s.ie s.arg x s.rst v ht
  · exact .completion he hb ((runCommand_of_decode (s := { s with inputs := s.inputs.tail }) hd).trans hx)
  · exact .completion he hb ((runCommand_of_not_decode (s := { s with inputs := s.inputs.tail }) hd).trans
      (congrArg _ ht.symm))
  · exact .reset hr ht
  · obtain ⟨he, hr', hw⟩ := releaseNext_excludes hr
    exact .quiet ⟨fun ⟨h', _⟩ => he h', hr', fun x => ⟨hw _ x, hw _ x⟩⟩ s.ie s.arg s.data false
      s.response ht

/-! ## How a pending command ends -/

/-- ERR is as before when the command's code is OK, and set when it is not (R46, R240). -/
theorem exec_err {i : Instr} {s t : State} (h : exec i s = .next t) :
    t.err = true ↔ s.err = true ∨ t.ecode ≠ .ok := by
  rcases exec_cases i s with ⟨e, hne, he⟩ | ⟨m, r, q, l, g, n, he⟩
  all_goals obtain rfl := Host.Outcome.next.inj (he.symm.trans h)
  · simp [hne]
  · simp

/-- Whatever the latched word, its completion sets DONE, clears BUSY, sets ERR if its code is an error,
and leaves the host's side alone (R240). -/
theorem runCommand_ends {s t : State} (h : runCommand s = .next t) :
    t.busy = false ∧ t.done = true ∧ (t.err = true ↔ s.err = true ∨ t.ecode ≠ .ok) ∧
      SameHostSide s t := by
  rcases runCommand_cases s with ⟨i, -, hx⟩ | ⟨-, -, hx⟩
  · obtain ⟨hb, hd, hs⟩ := exec_ends (hx.symm.trans h)
    exact ⟨hb, hd, exec_err (hx.symm.trans h), hs⟩
  · obtain rfl := Host.Outcome.next.inj (hx.symm.trans h)
    simp [SameHostSide]

/-- The step that completes a command is that command's `exec`. -/
theorem step_of_completes {i : Instr} {s : State} (h : Completes i s) :
    step s = exec i { s with inputs := s.inputs.tail } := by
  obtain ⟨he, hb, hd⟩ := h
  simp only [step, nextEvent_of_engineNext he, perform, engineStep, hb, if_true]
  exact runCommand_of_decode hd

/-- The step of an idle engine consumes the event and changes nothing else (R260). -/
theorem step_of_idle {s : State} (he : s.EngineNext) (hb : s.busy = false) :
    step s = .next { s with inputs := s.inputs.tail } := by
  simp only [step, nextEvent_of_engineNext he, perform]
  exact engineStep_idle hb

/-! ## What only a completion writes -/

/-- Vector registers, RESULT, comparison flags and NOINV are unchanged. -/
def SameResults (s t : State) : Prop :=
  t.vectors = s.vectors ∧ t.result = s.result ∧ SameCompareFlags s t ∧ t.noinv = s.noinv

/-- A command that does not complete with OK raised an error, and wrote no result (R241). -/
theorem exec_ok_or_sameResults {i : Instr} {s t : State} (h : exec i s = .next t) :
    t.ecode = .ok ∨ SameResults s t := by
  rcases exec_cases i s with ⟨e, -, he⟩ | ⟨m, r, q, l, g, n, he⟩
  all_goals obtain rfl := Host.Outcome.next.inj (he.symm.trans h)
  · exact .inr ⟨rfl, rfl, ⟨rfl, rfl, rfl⟩, rfl⟩
  · exact .inl rfl

/-- The results change only when a decoded command completes with OK, or at reset (R42, R241). -/
theorem step_results_cases {s t : State} (h : step s = .next t) :
    SameResults s t ∨ ResetNext s ∨
      ∃ i, Completes i s ∧ exec i { s with inputs := s.inputs.tail } = .next t ∧ t.ecode = .ok := by
  cases stepEffect_of_step h with
  | completion he hb hx =>
    rcases runCommand_cases { s with inputs := s.inputs.tail } with ⟨i, hd, hi⟩ | ⟨_, _, hi⟩
    · have hx := hi.symm.trans hx
      exact (exec_ok_or_sameResults hx).elim (fun hok => .inr (.inr ⟨i, ⟨he, hb, hd⟩, hx, hok⟩)) .inl
    · obtain rfl := Host.Outcome.next.inj (hi.symm.trans hx)
      exact .inl ⟨rfl, rfl, ⟨rfl, rfl, rfl⟩, rfl⟩
  | reset hr _ => exact .inr (.inl hr)
  | clear _ _ _ ht | overrun _ _ _ _ ht | accept _ _ _ _ ht | quiet _ _ _ _ _ _ ht =>
    subst ht
    exact .inl ⟨rfl, rfl, ⟨rfl, rfl, rfl⟩, rfl⟩

/-- With no completion and no reset, the results and ECODE are unchanged (R42, R46). -/
theorem step_keeps_results {s t : State} (h : step s = .next t)
    (hc : ¬ (s.EngineNext ∧ s.busy = true)) (hr : ¬ ResetNext s) :
    SameResults s t ∧ t.ecode = s.ecode := by
  cases stepEffect_of_step h with
  | completion he hb _ => exact absurd ⟨he, hb⟩ hc
  | reset h' _ => exact absurd h' hr
  | clear _ _ _ ht | overrun _ _ _ _ ht | accept _ _ _ _ ht | quiet _ _ _ _ _ _ ht =>
    subst ht
    exact ⟨⟨rfl, rfl, ⟨rfl, rfl, rfl⟩, rfl⟩, rfl⟩

/-! ## BUSY and DONE (R42, R43) -/

/-- BUSY rises at a CMD write, and falls at the engine's turn or at reset. -/
theorem step_busy {s t : State} (h : step s = .next t) :
    (s.busy = false → (t.busy = true ↔ ∃ x, HostWrites 0x10 x s)) ∧
      (s.busy = true → (t.busy = false ↔ s.EngineNext ∨ ResetNext s)) := by
  cases stepEffect_of_step h with
  | completion he hb hx => simp [hb, he, (runCommand_ends hx).1]
  | reset hr ht => subst ht; simp [hr, resetNext_excludes hr, assertReset, State.resetOf]
  | clear x hw v ht => subst ht; simp [hostWrites_excludes hw]
  | overrun x hw hb v ht => subst ht; simp [hostWrites_excludes hw, hb]
  | accept x hw hb v ht => subst ht; simp [hostWrites_excludes hw, hb]
  | quiet hq ie a d r v ht =>
    subst ht
    obtain ⟨hc, hr, hw⟩ := hq
    refine ⟨fun hb => by simp [hb, hw], fun hb => ?_⟩
    simp only [hb, and_true] at hc
    simp [hb, hc, hr]

/-- The reset step leaves the block idle (R280). -/
theorem step_busy_of_resetNext {s t : State} (h : step s = .next t) (hr : ResetNext s) :
    t.busy = false := by
  obtain ⟨hrise, hfall⟩ := step_busy h
  cases hb : s.busy with
  | true => exact (hfall hb).2 (.inr hr)
  | false => simpa [resetNext_excludes hr] using hrise hb

/-- Settles O47: `step_busy`, and a command is still pending only when none completed and `rst` was not
asserted. -/
theorem busyAndAtomicCommit : Obligations.BusyAndAtomicCommit := by
  intro s t h
  obtain ⟨hrise, hfall⟩ := step_busy h
  refine ⟨hrise, hfall, fun ht => ?_⟩
  have hc : ¬ (s.EngineNext ∧ s.busy = true) := fun ⟨he, hb⟩ => by
    simp [(hfall hb).2 (.inl he)] at ht
  have hr : ¬ ResetNext s := fun hr => by
    simp [step_busy_of_resetNext h hr] at ht
  obtain ⟨⟨hv, hres, hf, hn⟩, he⟩ := step_keeps_results h hc hr
  exact ⟨hv, hres, hf, hn, he⟩

/-- Settles O48, by the effects of a step: a completion sets DONE, and an acceptance, a STATUS write with
bit 1 and a reset clear it. -/
theorem doneRisesAtCompletion : Obligations.DoneRisesAtCompletion := by
  intro s t h
  cases stepEffect_of_step h with
  | completion he hb hx => simp [hb, he, (runCommand_ends hx).2.1, engineNext_excludes he]
  | reset hr ht => subst ht; simp [hr, resetNext_excludes hr, assertReset, State.resetOf]
  | clear x hw v ht => subst ht; simp +contextual [hostWrites_excludes hw]
  | overrun x hw hb v ht => subst ht; simp [hostWrites_excludes hw, hb]
  | accept x hw hb v ht => subst ht; simp [hostWrites_excludes hw, hb]
  | quiet hq ie a d r v ht =>
    subst ht
    obtain ⟨hc, hr, hw⟩ := hq
    simp +contextual [hw, hr, hc]

/-! ## Acceptance and the latches (R47) -/

/-- Only an acceptance or a reset writes the latches, and a command that stays pending saw neither. -/
theorem step_keeps_latches {s t : State} (h : step s = .next t) (hb : s.busy = true)
    (hb' : t.busy = true) : t.lcmd = s.lcmd ∧ t.larg = s.larg ∧ t.ldata = s.ldata := by
  cases stepEffect_of_step h with
  | completion _ _ hx => exact absurd hb' (by simp [(runCommand_ends hx).1])
  | reset hr _ => exact absurd hb' (by simp [step_busy_of_resetNext h hr])
  | accept _ _ hidle => exact absurd hb (by simp [hidle])
  | clear _ _ _ ht | overrun _ _ _ _ ht | quiet _ _ _ _ _ _ ht =>
    subst ht
    exact ⟨rfl, rfl, rfl⟩

/-- Settles O42: the write is `offerCommand`, and `step_keeps_latches` is the claim about later steps. -/
theorem cmdWriteIsAcceptedOrOverruns : Obligations.CmdWriteIsAcceptedOrOverruns := by
  refine ⟨fun s x rest hi hr => ?_, fun _ _ => step_keeps_latches⟩
  have h := step_of_hostNext hi (by decide) (by decide) hr
  rcases offerCommand_cases x s with ⟨hb, ho⟩ | ⟨hb, ho⟩
  all_goals simp only [writeRegister, ho] at h
  · exact ⟨fun _ => h, fun hidle => absurd hb (by simp [hidle])⟩
  · exact ⟨fun hbusy => absurd hb (by simp [hbusy]), fun _ => h⟩

/-! ## ECODE, ERR and OVR (R46) -/

/-- ERR rises at a completion whose code is an error, and falls at a STATUS write with bit 6 or at
reset. -/
theorem step_err {s t : State} (h : step s = .next t) :
    (s.err = false → (t.err = true ↔ s.EngineNext ∧ s.busy = true ∧ t.ecode ≠ .ok)) ∧
      (s.err = true →
        (t.err = false ↔ (∃ x, HostWrites 0x0C x s ∧ x.getLsbD 6 = true) ∨ ResetNext s)) := by
  cases stepEffect_of_step h with
  | completion he hb hx =>
    obtain ⟨-, -, herr, -⟩ := runCommand_ends hx
    refine ⟨fun h0 => by simp [herr, h0, he, hb], fun h1 => ?_⟩
    simp [engineNext_excludes he, herr.2 (.inl h1)]
  | reset hr ht => subst ht; simp [hr, resetNext_excludes hr, assertReset, State.resetOf]
  | clear x hw v ht => subst ht; simp +contextual [hostWrites_excludes hw]
  | overrun x hw hb v ht => subst ht; simp +contextual [hostWrites_excludes hw]
  | accept x hw hb v ht => subst ht; simp +contextual [hostWrites_excludes hw, hb]
  | quiet hq ie a d r v ht =>
    subst ht
    obtain ⟨hc, hr, hw⟩ := hq
    rw [not_and] at hc
    simp +contextual [hw, hr, hc]

/-- OVR rises at a CMD write while BUSY, and falls at a STATUS write with bit 7 or at reset. -/
theorem step_ovr {s t : State} (h : step s = .next t) :
    (s.ovr = false → (t.ovr = true ↔ s.busy = true ∧ ∃ x, HostWrites 0x10 x s)) ∧
      (s.ovr = true →
        (t.ovr = false ↔ (∃ x, HostWrites 0x0C x s ∧ x.getLsbD 7 = true) ∨ ResetNext s)) := by
  cases stepEffect_of_step h with
  | completion he hb hx =>
    obtain ⟨-, -, -, -, -, hovr, -⟩ := runCommand_ends hx
    simp +contextual [engineNext_excludes he, hovr]
  | reset hr ht => subst ht; simp [hr, resetNext_excludes hr, assertReset, State.resetOf]
  | clear x hw v ht => subst ht; simp +contextual [hostWrites_excludes hw]
  | overrun x hw hb v ht => subst ht; simp +contextual [hostWrites_excludes hw, hb]
  | accept x hw hb v ht => subst ht; simp +contextual [hostWrites_excludes hw, hb]
  | quiet hq ie a d r v ht =>
    subst ht
    obtain ⟨hc, hr, hw⟩ := hq
    simp +contextual [hw, hr]

/-- A pending word that is no command's completes with ILLEGAL (R97, R98). -/
theorem step_of_illegal {s : State} (he : s.EngineNext) (hb : s.busy = true)
    (hno : ∀ i, ¬ Completes i s) :
    step s = .next (State.raised { s with inputs := s.inputs.tail } .illegal) := by
  simp only [step, nextEvent_of_engineNext he, perform, engineStep, hb, if_true]
  exact runCommand_of_not_decode fun i hd => hno i ⟨he, hb, hd⟩

/-- Settles O52: `step_err` and `step_ovr` for the two flags, and for ECODE the step of each kind of
completion and `step_keeps_results` for every other. -/
theorem ecodeErrAndOvrRules : Obligations.EcodeErrAndOvrRules := by
  intro s t h
  obtain ⟨herr, herr'⟩ := step_err h
  obtain ⟨hovr, hovr'⟩ := step_ovr h
  refine ⟨fun hne => ?_, fun i hi => ?_, fun he hb hno => ?_, herr, herr', hovr, hovr', fun x hw => ?_⟩
  · by_contra hq
    rw [not_or] at hq
    exact hne (step_keeps_results h hq.1 hq.2).2
  · rw [nextEvent_of_engineNext hi.1, ← step_of_completes hi, h]
  · obtain rfl := Host.Outcome.next.inj ((step_of_illegal he hb hno).symm.trans h)
    rfl
  · obtain ⟨he, hr, -⟩ := hostWrites_excludes hw
    exact (step_keeps_results h (fun hc => he hc.1) hr).2

/-! ## Which command writes what (R39, R44, R45) -/

/-- Settles O49: of the commands that complete only CMP writes the flags, and equal values of different
lengths leave all three clear. -/
theorem onlyCmpWritesCompareFlags : Obligations.OnlyCmpWritesCompareFlags := by
  refine ⟨fun s t h => ⟨fun hne => ?_, fun va vb hi => ?_⟩, ?_⟩
  · rcases step_results_cases h with ⟨-, -, hf, -⟩ | hr | ⟨i, hi, hx, hok⟩
    · exact absurd hf hne
    · exact .inr hr
    · rcases (exec_writes hx).1 with hf | ⟨va, vb, rfl⟩
      · exact absurd hf hne
      · exact .inl ⟨va, vb, hi⟩
  · rw [step_of_completes hi] at h
    obtain rfl := (complete_eq_next _ _).1 h
    exact ⟨rfl, compareFlags_exclusive (s.readV va) (s.readV vb) s⟩
  · exact ⟨(State.reset.writeV 1 ⟨4, 3⟩).writeV 2 ⟨2, 3⟩, _, 1, 2, by decide, rfl, rfl, rfl, rfl⟩

/-- Settles O51: RESULT is a result of a command that completed with OK, and `exec_writes` names the
commands that write it. -/
theorem onlyReadCommandsWriteResult : Obligations.OnlyReadCommandsWriteResult := by
  intro s t h hne
  rcases step_results_cases h with ⟨-, hres, -⟩ | hr | ⟨i, hi, hx, hok⟩
  · exact absurd hres hne
  · exact .inr hr
  · rcases (exec_writes hx).2.2 with hres | ⟨va, hva⟩
    · exact absurd hres hne
    · refine .inl ⟨hok, va, ?_⟩
      rcases hva with rfl | rfl | rfl | rfl <;> simp [hi]

/-- GFINV that completes with OK sets NOINV exactly when the gcd is not 1 (R207). -/
theorem execGfinv_noinv {vd va vb : Reg} {s t : State} (h : exec (.gfinv vd va vb) s = .next t)
    (hok : t.ecode = .ok) :
    t.noinv = true ↔ pgcd (s.readV va).val (s.readV vb).val ≠ 1 := by
  simp only [exec, execGfinv, euclid_fst] at h
  split at h
  · next e he =>
    obtain rfl := (raise_eq_next _ _ _).1 h
    exact absurd hok (modulusError_ne_ok he)
  · split at h
    all_goals obtain rfl := (complete_eq_next _ _).1 h
    · next hg => simp [hg]
    · next hg => simpa using hg

/-- Settles O50: NOINV is a result of a command that completed with OK, of the commands only GFINV writes
it, and `execGfinv_noinv` gives its value. -/
theorem onlyGfinvWritesNoinv : Obligations.OnlyGfinvWritesNoinv := by
  intro s t h
  refine ⟨fun hne => ?_, fun vd va vb hi hok => ?_⟩
  · rcases step_results_cases h with ⟨-, -, -, hn⟩ | hr | ⟨i, hi, hx, hok⟩
    · exact absurd hn hne
    · exact .inr hr
    · rcases (exec_writes hx).2.1 with hn | ⟨vd, va, vb, rfl⟩
      · exact absurd hn hne
      · exact .inl ⟨vd, va, vb, hi, hok⟩
  · exact execGfinv_noinv (s := { s with inputs := s.inputs.tail })
      ((step_of_completes hi).symm.trans h) hok

/-- Settles O53: no effect of a step writes the configuration, and the vectors are results of a command
that completed with OK. -/
theorem vectorsChangeOnlyAtCompletion : Obligations.VectorsChangeOnlyAtCompletion := by
  intro s t h
  refine ⟨?_, fun hne => ?_, fun he hb => ?_⟩
  · cases stepEffect_of_step h with
    | completion he hb hx =>
      obtain ⟨-, -, -, hcfg, -⟩ := runCommand_ends hx
      exact hcfg
    | reset _ ht | clear _ _ _ ht | overrun _ _ _ _ ht | accept _ _ _ _ ht | quiet _ _ _ _ _ _ ht =>
      subst ht
      rfl
  · rcases step_results_cases h with ⟨hv, -⟩ | hr | ⟨i, hi, hx, hok⟩
    · exact absurd hv hne
    · exact .inr hr
    · exact .inl ⟨hok, i, hi⟩
  · exact Host.Outcome.next.inj (h.symm.trans (step_of_idle he hb))

/-! ## The footprint of a command (R49, R60) -/

/-- The storage after a list of register writes, the first one first. -/
def Memory.writes (m : Memory) (ws : List (Reg × Vec)) : Memory :=
  ws.foldl (fun m w => m.write w.1 w.2) m

@[simp] theorem writes_nil (m : Memory) : m.writes [] = m := rfl

@[simp] theorem writes_cons (m : Memory) (w : Reg × Vec) (ws : List (Reg × Vec)) :
    m.writes (w :: ws) = (m.write w.1 w.2).writes ws := rfl

/-- The same writes keep two storages equal at a register where they were. -/
theorem read_writes_congr {m m' : Memory} (ws : List (Reg × Vec)) {r : Reg}
    (h : m'.read r = m.read r) : (m'.writes ws).read r = (m.writes ws).read r := by
  induction ws generalizing m m' with
  | nil => exact h
  | cons w ws ih => exact ih (by simp only [read_write, h])

/-- A register that is not among the written ones keeps its value. -/
theorem read_writes_of_not_mem {m : Memory} {ws : List (Reg × Vec)} {r : Reg}
    (h : ∀ w ∈ ws, r ≠ w.1) : (m.writes ws).read r = m.read r := by
  induction ws generalizing m with
  | nil => rfl
  | cons w ws ih =>
    obtain ⟨hw, hws⟩ := List.forall_mem_cons.1 h
    rw [writes_cons, ih hws, read_write, if_neg hw]

/-- Two runs end in states that are equal but for the storage, by the same writes to registers
of `rs`. -/
def EndAlike (rs : List Reg) (m m' : Memory) (o o' : StepOutcome) : Prop :=
  ∃ (t : State) (ws : List (Reg × Vec)), (∀ w ∈ ws, w.1 ∈ rs) ∧
    o = .next { t with vectors := m.writes ws } ∧ o' = .next { t with vectors := m'.writes ws }

/-- A failed check commits nothing, whatever the storage (R241). -/
theorem endAlike_raise {rs : List Reg} (e : ErrorCode) (s : State) (m : Memory) :
    EndAlike rs s.vectors m (raise e s) (raise e { s with vectors := m }) :=
  ⟨s.raised e, [], by simp, rfl, rfl⟩

/-- A command that writes no register completes alike on every storage. -/
theorem endAlike_complete {rs : List Reg} (s : State) (m : Memory) :
    EndAlike rs s.vectors m (complete s) (complete { s with vectors := m }) :=
  ⟨s.completed, [], by simp, rfl, rfl⟩

theorem endAlike_complete_writeV {rs : List Reg} (s : State) (m : Memory) {r : Reg} (v : Vec)
    (hr : r ∈ rs) :
    EndAlike rs s.vectors m (complete (s.writeV r v))
      (complete (State.writeV { s with vectors := m } r v)) :=
  ⟨s.completed, [(r, v)], by simpa using hr, rfl, rfl⟩

theorem endAlike_complete_writeV_writeV {rs : List Reg} (s : State) (m : Memory) {r q : Reg}
    (v u : Vec) (hr : r ∈ rs) (hq : q ∈ rs) :
    EndAlike rs s.vectors m (complete ((s.writeV r v).writeV q u))
      (complete ((State.writeV { s with vectors := m } r v).writeV q u)) :=
  ⟨s.completed, [(r, v), (q, u)], by simp [hr, hq], rfl, rfl⟩

/-- A command reads no register but those it names, so another storage with the same values in them
takes the same branches and the same writes. -/
theorem exec_endAlike (i : Instr) (s : State) (m : Memory)
    (h : ∀ r ∈ i.regs, State.readV { s with vectors := m } r = s.readV r) :
    EndAlike i.regs s.vectors m (exec i s) (exec i { s with vectors := m }) := by
  have hu : argU { s with vectors := m } = argU s := rfl
  have hs : argS { s with vectors := m } = argS s := rfl
  cases i
  all_goals simp only [Instr.regs, List.forall_mem_cons, List.not_mem_nil, false_imp_iff,
    implies_true, and_true] at h
  all_goals simp only [exec, execNop, execAlloc, execMov, execGetlen, execGetb, execSetb, execFill,
    execPadl, execRdw, execWrw, execRdb, execAnd, execOr, execXor, execNot, execCmp, execRotl,
    execRotr, execShl, execShr, shiftCommand, execGfmul, execGfdiv, execGfmulmod, execGfinv,
    h, hu, hs]
  all_goals repeat' split
  -- a check that fails raises; a command that passes its checks mostly writes one register, its first
  any_goals exact endAlike_raise _ s m
  any_goals exact endAlike_complete_writeV s m _ List.mem_cons_self
  -- the others: NOP; GETLEN, GETB, RDW and RDB; CMP; GFDIV; GFINV without an inverse and with one
  · exact endAlike_complete s m
  · exact endAlike_complete (s.writeResult _) m
  · exact endAlike_complete (s.writeResult _) m
  · exact endAlike_complete (s.writeResult _) m
  · exact endAlike_complete (s.writeResult _) m
  · exact endAlike_complete (compareFlags _ _ s) m
  · exact endAlike_complete_writeV_writeV s m _ _ (by simp [Instr.regs]) (by simp [Instr.regs])
  · exact endAlike_complete { s with noinv := true } m
  · exact endAlike_complete_writeV { s with noinv := false } m _ List.mem_cons_self

/-- Settles O56: both runs make the same writes, all of them to registers the command names. -/
theorem commandsSeeOnlyTheirRegisters : Obligations.CommandsSeeOnlyTheirRegisters := by
  intro i s s' t t' hs hread ht ht'
  generalize s'.vectors = m at hs
  subst hs
  obtain ⟨u, ws, hws, hu, hu'⟩ := exec_endAlike i s m hread
  obtain rfl := Host.Outcome.next.inj (hu.symm.trans ht)
  obtain rfl := Host.Outcome.next.inj (hu'.symm.trans ht')
  have hkeep : ∀ r, r ∉ i.regs → ∀ w ∈ ws, r ≠ w.1 := fun r hr w hw he => hr (he ▸ hws w hw)
  exact ⟨rfl, fun r hr => read_writes_congr ws (hread r hr),
    fun r hr => read_writes_of_not_mem (hkeep r hr), fun r hr => read_writes_of_not_mem (hkeep r hr)⟩

end Sys2Proof.Machine
end

section
/-! PROOFS. Family 20_memory: which host accesses are refused, and that nothing else stops the machine. -/

namespace Sys2Proof.Machine

/-- A refused access leaves the block's state unchanged and returns no data (R65). -/
theorem busAccess_of_not_accepted {a : Access} {s : State} (h : ¬ Accepted a s) :
    busAccess a s = (s, .error) := by
  obtain ⟨cause, hc⟩ := Option.ne_none_iff_exists'.1 (accessProblem_eq_none.not.2 h)
  simp only [busAccess, hc]

/-- Whether a host access is accepted is decided by the state it meets: an accepted one answers a next
state, a refused one is the bus-error fault (R65). -/
theorem step_of_host {s : State} {a : Access} {rest : List Event} (h : s.inputs = .host a :: rest) :
    (¬ Accepted a s ∧ ∃ cause, step s = .fault (.busError cause)) ∨
      (Accepted a s ∧ ∃ t, step s = .next t) := by
  have hstep : step s = hostStep a { s with inputs := rest } := by
    simp only [step, nextEvent, h, perform]
  rw [hstep]
  rcases hostStep_cases a { s with inputs := rest } with ⟨hna, cause, -, hf⟩ | ⟨ha, hn⟩
  · exact .inl ⟨hna, cause, hf⟩
  · exact .inr ⟨ha, _, hn⟩

/-- Every command ends in a next state, an error included (R240, R250). -/
theorem exec_eq_next (i : Instr) (s : State) : ∃ t, exec i s = .next t := by
  rcases exec_cases i s with ⟨e, -, he⟩ | ⟨m, r, q, l, g, n, he⟩
  · exact ⟨_, he⟩
  · exact ⟨_, he⟩

/-- The engine's turn ends in a next state, whatever the latched word is (R99, R240, R260). -/
theorem engineStep_eq_next (s : State) : ∃ t, engineStep s = .next t := by
  cases hb : s.busy with
  | false => exact ⟨s, engineStep_idle hb⟩
  | true =>
    rw [engineStep_busy hb]
    rcases runCommand_cases s with ⟨i, -, hx⟩ | ⟨e, -, hx⟩
    · rw [hx]
      exact exec_eq_next i s
    · exact ⟨_, hx⟩

/-- Settles O45: `busAccess_of_not_accepted` for the block's side, `step_of_host` for the host step. -/
theorem refusedAccessFaultsAndChangesNothing : Obligations.RefusedAccessFaultsAndChangesNothing := by
  intro s a rest h
  rcases step_of_host h with ⟨hna, hf⟩ | ⟨ha, hn⟩
  · exact ⟨fun _ => ⟨busAccess_of_not_accepted hna, hf⟩, fun ha => absurd ha hna⟩
  · exact ⟨fun hna => absurd ha hna, fun _ => hn⟩

/-- Settles O46, by the kind of the next event: only a host access can be refused, the engine's turn is
`engineStep_eq_next`, and a change of `rst` answers outright. -/
theorem onlyRefusedAccessesStopTheMachine : Obligations.OnlyRefusedAccessesStopTheMachine := by
  intro s
  obtain ⟨u, -, ⟨a, hi, -⟩ | ⟨-, hx⟩ | ⟨-, hx⟩ | ⟨-, hx⟩⟩ := step_cases s
  · rcases step_of_host hi with ⟨hna, cause, hf⟩ | ⟨-, hn⟩
    · exact .inr ⟨a, u.inputs, cause, hi, hna, hf⟩
    · exact .inl hn
  · rw [hx]
    exact .inl (engineStep_eq_next u)
  · exact .inl ⟨_, hx⟩
  · exact .inl ⟨_, hx⟩

end Sys2Proof.Machine
end

section
/-! PROOFS. Family 30_encoding: the decoder undoes the encoder, it accepts exactly the rows of the opcode
table, and the engine's turn runs the decoded command or raises ILLEGAL. -/

namespace Sys2Proof

/-! ## The round trip (R91, R92, R96) -/

/-- A command is read back from its own fields. -/
theorem instrOf_fields : ∀ i : Instr, instrOf i.fields = some i
  | .nop => Laws.FieldsReadBack.nop
  | .alloc vd => Laws.FieldsReadBack.alloc vd
  | .mov vd va => Laws.FieldsReadBack.mov vd va
  | .getlen va => Laws.FieldsReadBack.getlen va
  | .getb va => Laws.FieldsReadBack.getb va
  | .setb vd imm => Laws.FieldsReadBack.setb vd imm
  | .fill vd imm => Laws.FieldsReadBack.fill vd imm
  | .padl vd => Laws.FieldsReadBack.padl vd
  | .rdw va => Laws.FieldsReadBack.rdw va
  | .wrw vd => Laws.FieldsReadBack.wrw vd
  | .rdb va => Laws.FieldsReadBack.rdb va
  | .and vd va vb => Laws.FieldsReadBack.and vd va vb
  | .or vd va vb => Laws.FieldsReadBack.or vd va vb
  | .xor vd va vb => Laws.FieldsReadBack.xor vd va vb
  | .not vd va => Laws.FieldsReadBack.not vd va
  | .cmp va vb => Laws.FieldsReadBack.cmp va vb
  | .rotl vd => Laws.FieldsReadBack.rotl vd
  | .rotr vd => Laws.FieldsReadBack.rotr vd
  | .shl vd => Laws.FieldsReadBack.shl vd
  | .shr vd => Laws.FieldsReadBack.shr vd
  | .gfmul vd va vb => Laws.FieldsReadBack.gfmul vd va vb
  | .gfdiv vd vc va vb => Laws.FieldsReadBack.gfdiv vd vc va vb
  | .gfmulmod vd va vb vc => Laws.FieldsReadBack.gfmulmod vd va vb vc
  | .gfinv vd va vb => Laws.FieldsReadBack.gfinv vd va vb

/-- No two commands have the same fields. -/
theorem fields_injective {i j : Instr} (h : i.fields = j.fields) : i = j :=
  Option.some.inj (by rw [← instrOf_fields i, h, instrOf_fields])

/-- The decoder accepts a word exactly as the command whose fields the word has, if that is well formed. -/
theorem decode_eq_ok_iff_fields {c : Config} {x : Word} {i : Instr} :
    decode c x = .ok i ↔ fieldsOf x = i.fields ∧ i.wellFormed c = true := by
  rw [decode_eq_ok]
  exact and_iff_right_of_imp fun ⟨hf, _⟩ => hf ▸ instrOf_fields i

/-- Settles O1: the word of a command has the command's fields. -/
theorem decodeOfEncodeIsTheCommand : Obligations.DecodeOfEncodeIsTheCommand :=
  fun _ i hw => decode_eq_ok_iff_fields.2 ⟨fieldsOf_assemble i.fields, hw⟩

/-- Settles O2: the decoder has compared the word's fields with the command's, and a word is assembled
from its fields. -/
theorem decodedWordIsTheEncoding : Obligations.DecodedWordIsTheEncoding := by
  intro c x i h
  obtain ⟨hf, hw⟩ := decode_eq_ok_iff_fields.1 h
  exact ⟨by rw [encode, ← hf, assemble_fieldsOf], hw⟩

/-- Settles O4, by evaluating the decoder on the eight words. -/
theorem printedWordsDecode : Obligations.PrintedWordsDecode := by
  unfold Obligations.PrintedWordsDecode
  decide

/-! ## Selecting a row, field by field (R92, R96) -/

/-- The bitwise AND of two words' fields. -/
def Fields.and (f g : Fields) : Fields :=
  ⟨f.op &&& g.op, f.vd &&& g.vd, f.va &&& g.va, f.vb &&& g.vb, f.vc &&& g.vc, f.imm &&& g.imm⟩

theorem fieldsOf_and (x y : Word) : fieldsOf (x &&& y) = (fieldsOf x).and (fieldsOf y) := by
  simp only [fieldsOf, Fields.and, BitVec.extractLsb'_and]

theorem fieldsOf_injective {x y : Word} (h : fieldsOf x = fieldsOf y) : x = y := by
  rw [← assemble_fieldsOf x, h, assemble_fieldsOf]

/-- A row's pattern has the row's OP, and zero in every other field (R96). -/
theorem fieldsOf_pattern (r : OpcodeRow) :
    fieldsOf r.pattern = ⟨BitVec.ofNat 6 r.op, 0, 0, 0, 0, 0⟩ := by
  simp only [fieldsOf, OpcodeRow.pattern, Fields.mk.injEq]
  refine ⟨?_, ?_, ?_, ?_, ?_, ?_⟩ <;> ext k hk
  · simp [BitVec.getLsbD_ofNat, ← BitVec.getLsbD_eq_getElem, hk, show 26 + k < 32 by omega,
      show k < 32 by omega]
  all_goals
    simp
    omega

/-- A row's mask covers OP, the register fields the row does not use, and IMM but for SETB and FILL
(R92). -/
theorem fieldsOf_mask : ∀ r ∈ opcodeTable, fieldsOf r.mask =
    ⟨.allOnes 6, if r.usesVD then 0 else .allOnes 4, if r.usesVA then 0 else .allOnes 4,
      if r.usesVB then 0 else .allOnes 4, if r.usesVC then 0 else .allOnes 4,
      if r.op = 0x05 ∨ r.op = 0x06 then 0 else .allOnes 10⟩ := by decide

/-- A word selects a row when it has the row's OP and zero in every field the row does not use. -/
theorem selects_iff {r : OpcodeRow} (hr : r ∈ opcodeTable) {x : Word} :
    r.selects x = true ↔
      (fieldsOf x).op = BitVec.ofNat 6 r.op ∧ (r.usesVD = false → (fieldsOf x).vd = 0) ∧
        (r.usesVA = false → (fieldsOf x).va = 0) ∧ (r.usesVB = false → (fieldsOf x).vb = 0) ∧
        (r.usesVC = false → (fieldsOf x).vc = 0) ∧
        (¬ (r.op = 0x05 ∨ r.op = 0x06) → (fieldsOf x).imm = 0) := by
  have hmask {w : Nat} {p : Prop} [Decidable p] (y : BitVec w) :
      y &&& (if p then 0 else .allOnes w) = 0 ↔ (¬ p → y = 0) := by
    by_cases hp : p <;> simp [hp]
  have hfields : r.selects x = true ↔ (fieldsOf x).and (fieldsOf r.mask) = fieldsOf r.pattern := by
    rw [OpcodeRow.selects, beq_iff_eq, ← fieldsOf_and]
    exact ⟨congrArg fieldsOf, fieldsOf_injective⟩
  rw [hfields, fieldsOf_mask r hr, fieldsOf_pattern]
  simp only [Fields.and, Fields.mk.injEq, BitVec.and_allOnes, hmask, Bool.not_eq_true]

/-! ## The row of a command -/

/-- The row of R96 that stands for a command. -/
def Instr.row : Instr → OpcodeRow
  | .nop => rowN 0x00
  | .alloc _ => rowD 0x01
  | .mov _ _ => rowDA 0x02
  | .getlen _ => rowA 0x03
  | .getb _ => rowA 0x04
  | .setb _ _ => rowDI 0x05
  | .fill _ _ => rowDI 0x06
  | .padl _ => rowD 0x07
  | .rdw _ => rowA 0x08
  | .wrw _ => rowD 0x09
  | .rdb _ => rowA 0x0A
  | .and _ _ _ => rowDAB 0x10
  | .or _ _ _ => rowDAB 0x11
  | .xor _ _ _ => rowDAB 0x12
  | .not _ _ => rowDA 0x13
  | .cmp _ _ => rowAB 0x14
  | .rotl _ => rowD 0x18
  | .rotr _ => rowD 0x19
  | .shl _ => rowD 0x1A
  | .shr _ => rowD 0x1B
  | .gfmul _ _ _ => rowDAB 0x20
  | .gfdiv _ _ _ _ => rowDCAB 0x21
  | .gfmulmod _ _ _ _ => rowDCAB 0x22
  | .gfinv _ _ _ => rowDAB 0x23

theorem row_mem_opcodeTable (i : Instr) : i.row ∈ opcodeTable := by
  cases i <;> simp [Instr.row, opcodeTable]

/-- A word with a row's OP selects a command of that row. -/
theorem instrOf_of_row {r : OpcodeRow} (hr : r ∈ opcodeTable) {f : Fields}
    (h : f.op = BitVec.ofNat 6 r.op) : ∃ i, instrOf f = some i ∧ i.row = r := by
  obtain ⟨op, vd, va, vb, vc, imm⟩ := f
  obtain rfl : op = _ := h
  fin_cases hr <;> exact ⟨_, rfl, rfl⟩

/-- The fields of a word that selects its command's row are the command's. -/
theorem selects_row_iff {x : Word} {i : Instr} (h : instrOf (fieldsOf x) = some i) :
    i.row.selects x = true ↔ fieldsOf x = i.fields := by
  rw [selects_iff (row_mem_opcodeTable i)]
  generalize fieldsOf x = f at h
  obtain ⟨op, vd, va, vb, vc, imm⟩ := f
  simp only [instrOf] at h
  split at h <;> cases h
  all_goals
    simp [Instr.row, Instr.fields, rowN, rowD, rowDI, rowA, rowDA, rowAB, rowDAB, rowDCAB]

theorem toNat_regField (r : Reg) : (regField r).toNat = r.val := by
  rw [regField, BitVec.toNat_ofNat, Nat.mod_eq_of_lt r.isLt]

/-- The register fields the row uses hold the command's registers (R98). -/
theorem registersExist_row {c : Config} {x : Word} {i : Instr} (h : fieldsOf x = i.fields) :
    i.row.registersExist c x = i.wellFormed c := by
  have hread (r : OpcodeRow) : r.registersExist c x =
      ((!r.usesVD || decide (i.fields.vd.toNat < c.nv)) &&
        (!r.usesVA || decide (i.fields.va.toNat < c.nv)) &&
        (!r.usesVB || decide (i.fields.vb.toNat < c.nv)) &&
        (!r.usesVC || decide (i.fields.vc.toNat < c.nv))) := h ▸ rfl
  rw [hread]
  cases i <;> simp [Instr.row, Instr.fields, Instr.wellFormed, Instr.regs, toNat_regField,
    rowN, rowD, rowDI, rowA, rowDA, rowAB, rowDAB, rowDCAB, Bool.and_assoc, Bool.and_comm,
    Bool.and_left_comm]

/-- A word selects a row exactly when it has the fields of a command of that row. -/
theorem selects_iff_exists_fields {r : OpcodeRow} (hr : r ∈ opcodeTable) {x : Word} :
    r.selects x = true ↔ ∃ i : Instr, i.row = r ∧ fieldsOf x = i.fields := by
  constructor
  · intro hs
    obtain ⟨hop, -⟩ := (selects_iff hr).1 hs
    obtain ⟨i, hi, rfl⟩ := instrOf_of_row hr hop
    exact ⟨i, rfl, (selects_row_iff hi).1 hs⟩
  · rintro ⟨i, rfl, hf⟩
    exact (selects_row_iff (hf ▸ instrOf_fields i)).2 hf

/-- The decoder accepts exactly the words that select a row whose registers exist (R96, R98). -/
theorem exists_decode_iff {c : Config} {x : Word} :
    (∃ i, decode c x = .ok i) ↔
      ∃ r ∈ opcodeTable, r.selects x = true ∧ r.registersExist c x = true := by
  constructor
  · rintro ⟨i, hd⟩
    obtain ⟨hf, hw⟩ := decode_eq_ok_iff_fields.1 hd
    have hr := row_mem_opcodeTable i
    exact ⟨i.row, hr, (selects_iff_exists_fields hr).2 ⟨i, rfl, hf⟩, (registersExist_row hf).trans hw⟩
  · rintro ⟨r, hr, hs, hx⟩
    obtain ⟨i, rfl, hf⟩ := (selects_iff_exists_fields hr).1 hs
    exact ⟨i, decode_eq_ok_iff_fields.2 ⟨hf, (registersExist_row hf).symm.trans hx⟩⟩

/-- A word selects at most one row: the rows of two commands with the same fields are the same. -/
theorem selects_unique {r q : OpcodeRow} (hr : r ∈ opcodeTable) (hq : q ∈ opcodeTable) {x : Word}
    (hrs : r.selects x = true) (hqs : q.selects x = true) : r = q := by
  obtain ⟨i, rfl, hi⟩ := (selects_iff_exists_fields hr).1 hrs
  obtain ⟨j, rfl, hj⟩ := (selects_iff_exists_fields hq).1 hqs
  rw [fields_injective (hi.symm.trans hj)]

/-- Settles O3: `exists_decode_iff` for the words accepted, `selects_unique` for the rows apart. -/
theorem decoderAcceptsExactlyTheTable : Obligations.DecoderAcceptsExactlyTheTable :=
  fun _ _ => ⟨exists_decode_iff, fun _ hr _ hq => selects_unique hr hq⟩

/-- With all 16 registers there, every register field holds a number below NV (R98). -/
theorem registersExist_of_nv_eq {c : Config} (h : c.nv = 16) (r : OpcodeRow) (x : Word) :
    r.registersExist c x = true := by
  have hlt (y : BitVec 4) : decide (y.toNat < c.nv) = true := decide_eq_true (h ▸ y.isLt)
  simp only [OpcodeRow.registersExist, hlt, Bool.or_true, Bool.and_true]

end Sys2Proof

namespace Sys2Proof.Machine

/-! ## The engine's turn (R97, R98, R99) -/

/-- Settles O5: the command completes in this step, on the state without the event. -/
theorem stepRunsTheDecodedCommand : Obligations.StepRunsTheDecodedCommand := by
  intro s i he hb hd
  have hnext := nextEvent_of_engineNext he
  exact ⟨(step_of_completes ⟨he, hb, hd⟩).trans (by rw [hnext]), by rw [hnext]⟩

/-- Settles O6: a word that selects no row is not decoded. -/
theorem illegalWordRaisesIllegal : Obligations.IllegalWordRaisesIllegal := by
  intro s he hb hno
  refine step_of_illegal he hb fun i ⟨_, _, hd⟩ => hno ?_
  obtain ⟨r, hr, hs, -⟩ := exists_decode_iff.1 ⟨i, hd⟩
  exact ⟨r, hr, hs⟩

/-- Settles O7: a decoded word selects a row whose registers exist, and it selects no other row. -/
theorem missingRegisterRaisesIllegal : Obligations.MissingRegisterRaisesIllegal := by
  refine ⟨fun s he hb r hr hs hmissing => ?_, fun c x hnv r _ => registersExist_of_nv_eq hnv r x⟩
  refine step_of_illegal he hb fun i ⟨_, _, hd⟩ => ?_
  obtain ⟨q, hq, hqs, hexist⟩ := exists_decode_iff.1 ⟨i, hd⟩
  rw [selects_unique hq hr hqs hs, hmissing] at hexist
  cases hexist

end Sys2Proof.Machine
end

section
/-! PROOFS. Family 40_storage: what each storage command writes, which error it raises instead, and that a
bit written is read back. -/

namespace Sys2Proof.Machine

/-! ## The word of a command (R91, R92) -/

/-- The formula of R91 on the fields of a command gives the word that is read back as that command. -/
theorem encodedAs_of_fields {i : Instr} (op : BitVec 6) (vd va vb vc : Reg) (imm : BitVec 10)
    (h : i.fields = ⟨op, regField vd, regField va, regField vb, regField vc, imm⟩) :
    EncodedAs (commandWord op.toNat vd va vb vc imm.toNat) i := by
  have hword : commandWord op.toNat vd va vb vc imm.toNat = encode i := by
    rw [commandWord_eq_assemble op.isLt vd.isLt va.isLt vb.isLt vc.isLt imm.isLt, encode, h]
    simp only [BitVec.ofNat_toNat, BitVec.setWidth_eq, regField]
  exact ⟨hword.symm, fun c hw => hword ▸ decodeOfEncodeIsTheCommand c i hw⟩

/-- A word decodes to NOP exactly when it is 0 (R121). -/
theorem decode_eq_nop_iff (c : Config) (x : Word) : decode c x = .ok .nop ↔ x = 0 := by
  have hzero : fieldsOf 0 = Instr.nop.fields := by decide
  rw [decode_eq_ok_iff_fields, ← hzero]
  exact ⟨fun ⟨hf, _⟩ => fieldsOf_injective hf, fun hx => ⟨congrArg fieldsOf hx, rfl⟩⟩

/-- A word that selects a command but has other fields than that command is rejected for a reserved field
(R97). -/
theorem decode_of_fields_ne {c : Config} {x : Word} {i : Instr} (hi : instrOf (fieldsOf x) = some i)
    (hf : fieldsOf x ≠ i.fields) : decode c x = .error .reservedFieldNonzero := by
  simp only [decode, hi, if_pos hf]

/-- OP = 0 selects NOP. -/
theorem instrOf_of_op_eq_zero {f : Fields} (h : f.op = 0) : instrOf f = some .nop := by
  simp [instrOf, h]

/-! ## How a command ends (R240, R241) -/

/-- A command that completes without a write of its own. -/
theorem completed_wroteNothing (s : State) : WroteOnlyVectors [] s s.completed :=
  ⟨⟨rfl, rfl, rfl, rfl⟩, fun _ _ => rfl, ⟨rfl, rfl, rfl⟩, rfl, rfl, by simp [SameHostSide]⟩

/-- What a command that writes one vector register and completes answers. -/
theorem next_of_complete_writeV {i : Instr} {s : State} {r : Reg} {v : Vec}
    (h : exec i s = complete (s.writeV r v)) :
    ∃ t, exec i s = .next t ∧ t.readV r = v ∧ WroteOnlyVectors [r] s t :=
  ⟨_, h, readV_writeV_same s r v, writeV_completed_wroteOnly s r v⟩

/-- A value that fits 32 bits is RESULT's after it is written (R39). -/
theorem toNat_result_writeResult (s : State) {x : Nat} (hx : x < 2 ^ 32) :
    (s.writeResult x).completed.result.toNat = x := by
  rw [completed_result, writeResult_result, BitVec.toNat_ofNat, Nat.mod_eq_of_lt hx]

/-- What a command that writes RESULT and completes answers; the value fits 32 bits (R39). -/
theorem next_of_complete_writeResult {i : Instr} {s : State} {x : Nat} (hx : x < 2 ^ 32)
    (h : exec i s = complete (s.writeResult x)) :
    ∃ t, exec i s = .next t ∧ t.result.toNat = x ∧ WroteOnlyResult s t :=
  ⟨_, h, toNat_result_writeResult s hx, writeResult_completed_wroteOnly s x⟩

theorem raises_of_exec {i : Instr} {s : State} {e : ErrorCode} (h : exec i s = raise e s) :
    Raises e i s :=
  ⟨_, h, raised_isRaisedError e s⟩

/-! ## Whole registers (R121 to R124, R127, R128) -/

/-- Settles O11: only the word 0 has the fields of NOP, and `completed_wroteNothing` is its effect. -/
theorem nopOnlyCompletes : Obligations.NopOnlyCompletes := by
  refine ⟨fun c x => ⟨decode_eq_nop_iff c x, fun hop hx => ?_⟩, fun s => ?_⟩
  · refine decode_of_fields_ne (instrOf_of_op_eq_zero hop) fun hf => hx ?_
    exact (decode_eq_nop_iff c x).1 (decode_eq_ok_iff_fields.2 ⟨hf, rfl⟩)
  · exact ⟨s.completed, rfl, completed_wroteNothing s, Bool.and_true s.ie⟩

/-- Settles O12, by the CAPACITY check. -/
theorem allocGivesTheZeroVector : Obligations.AllocGivesTheZeroVector := by
  intro s vd
  refine ⟨encodedAs_of_fields 0x01 vd 0 0 0 0 rfl, fun h => ?_, fun h => ?_⟩
  · exact next_of_complete_writeV (if_neg (not_lt.2 h))
  · exact raises_of_exec (if_pos h)

/-- Settles O13: MOV has no error. -/
theorem movCopiesTheRegister : Obligations.MovCopiesTheRegister := fun _ vd va =>
  ⟨encodedAs_of_fields 0x02 vd va 0 0 0 rfl, next_of_complete_writeV rfl⟩

/-- A vector in canonical form is short enough for its length to fit RESULT (R6, R9). -/
theorem len_lt_of_wf {c : Config} {v : Vec} (hc : c.Legal) (hv : v.wf c) : v.len < 2 ^ 32 := by
  obtain ⟨-, ⟨-, hcap⟩, -⟩ := hc
  obtain ⟨hlen, -⟩ := hv
  omega

/-- Settles O14: the canonical form of the register bounds its length. -/
theorem getlenReadsTheLength : Obligations.GetlenReadsTheLength := by
  intro s va ⟨hc, hm, _⟩
  have hv : (s.readV va).wf s.cfg := readV_wf hm va
  obtain ⟨t, ht, hlen, hw⟩ :=
    next_of_complete_writeResult (i := .getlen va) (s := s) (len_lt_of_wf hc hv) rfl
  exact ⟨encodedAs_of_fields 0x03 0 va 0 0 0 rfl, t, ht, hlen, hlen ▸ hv.1, hw⟩

/-- The model tests the immediate word for 1, the statements its value. -/
theorem beq_one_eq_decide (imm : BitVec 10) : (imm == 1) = decide (imm.toNat = 1) := by
  rw [Bool.eq_iff_iff, beq_iff_eq, decide_eq_true_iff, ← BitVec.toNat_inj]
  rfl

/-- Every bit of the mask of the length is set, and no bit of 0 is. -/
theorem bit_fill {len p : Nat} (hp : p < len) (one : Prop) [Decidable one] :
    (Vec.mk len (if one then mask len else 0)).bit p = decide one := by
  by_cases h : one
  · simp only [Vec.bit, h, if_true, testBit_mask, decide_true, decide_eq_true_eq]
    omega
  · simp [Vec.bit, h]

/-- Settles O17: `bit_fill` for the bits. -/
theorem fillSetsEveryBit : Obligations.FillSetsEveryBit := by
  intro s vd imm
  refine ⟨encodedAs_of_fields 0x06 vd 0 0 0 imm rfl,
    fun himm => ?_, fun himm => raises_of_exec (if_pos himm)⟩
  have hexec : exec (.fill vd imm) s = complete (s.writeV vd
      ⟨(s.readV vd).len, if imm.toNat = 1 then mask (s.readV vd).len else 0⟩) := by
    simp only [exec, execFill, if_neg (not_lt.2 himm), beq_one_eq_decide, decide_eq_true_eq]
  obtain ⟨t, ht, hv, hw⟩ := next_of_complete_writeV hexec
  exact ⟨t, ht, hv, fun p hp => hv ▸ bit_fill hp _, hw⟩

/-- The bits of a value under `n` more leading zeros (R128). -/
theorem bit_pad (len x n p : Nat) : (Vec.mk (len + n) x).bit (p + n) = (Vec.mk len x).bit p := by
  simp only [Vec.bit]
  congr 1
  omega

/-- Settles O18: the value is kept, and `bit_pad` says where its bits are in the longer vector. -/
theorem padlAddsZerosOnTheLeft : Obligations.PadlAddsZerosOnTheLeft := by
  intro s vd
  refine ⟨encodedAs_of_fields 0x07 vd 0 0 0 0 rfl, fun h => ?_, fun h => raises_of_exec (if_pos h)⟩
  obtain ⟨t, ht, hv, hw⟩ := next_of_complete_writeV (i := .padl vd) (if_neg (not_lt.2 h))
  exact ⟨t, ht, hv, fun p _ => hv ▸ bit_pad _ _ _ p, hw⟩

/-! ## Single bits (R125, R126) -/

/-- The two indices that name a position resolve to it (R12). -/
theorem resolveIndex_of_position {len p : Nat} {i : Int} (hp : p < len)
    (hi : i = p ∨ i = (p : Int) - len) : resolveIndex len i = some p :=
  (resolveIndex_eq_some len i p).2 ⟨hp, by omega⟩

theorem execGetb_of_some {va : Reg} {s : State} {p : Nat}
    (h : resolveIndex (s.readV va).len (argS s) = some p) :
    exec (.getb va) s = complete (s.writeResult ((s.readV va).bit p).toNat) := by
  simp only [exec, execGetb, h]

theorem execGetb_of_none {va : Reg} {s : State}
    (h : resolveIndex (s.readV va).len (argS s) = none) : exec (.getb va) s = raise .range s := by
  simp only [exec, execGetb, h]

theorem execSetb_of_some {vd : Reg} {imm : BitVec 10} {s : State} {p : Nat} (himm : imm.toNat ≤ 1)
    (h : resolveIndex (s.readV vd).len (argS s) = some p) :
    exec (.setb vd imm) s =
      complete (s.writeV vd ((s.readV vd).setBit p (decide (imm.toNat = 1)))) := by
  simp only [exec, execSetb, if_neg (not_lt.2 himm), h, beq_one_eq_decide]

theorem execSetb_of_none {vd : Reg} {imm : BitVec 10} {s : State} (himm : imm.toNat ≤ 1)
    (h : resolveIndex (s.readV vd).len (argS s) = none) :
    exec (.setb vd imm) s = raise .range s := by
  simp only [exec, execSetb, if_neg (not_lt.2 himm), h]

/-- A bit fits RESULT. -/
theorem toNat_bool_lt (b : Bool) : b.toNat < 2 ^ 32 := lt_trans b.toNat_lt (by decide)

/-- The bit at a position is the lowest bit of the value shifted down to it (R10). -/
theorem toNat_bit (v : Vec) (p : Nat) : (v.bit p).toNat = (v.val >>> (v.len - 1 - p)) &&& 1 := by
  rw [Vec.bit, Nat.toNat_testBit, Nat.shiftRight_eq_div_pow, Nat.and_one_is_mod]

/-- Settles O15, by whether the index resolves to a position. -/
theorem getbReadsTheIndexedBit : Obligations.GetbReadsTheIndexedBit := by
  intro s va
  refine ⟨encodedAs_of_fields 0x04 0 va 0 0 0 rfl, fun p hp hi => ?_, fun hi => ?_⟩
  · rw [← toNat_bit]
    exact next_of_complete_writeResult (toNat_bool_lt _)
      (execGetb_of_some (resolveIndex_of_position hp hi))
  · exact raises_of_exec (execGetb_of_none ((resolveIndex_eq_none _ _).2 hi))

/-- Settles O16: `testBit_putBit` for the bits; the checks in their order for the errors. -/
theorem setbWritesTheIndexedBit : Obligations.SetbWritesTheIndexedBit := by
  intro s vd imm
  refine ⟨encodedAs_of_fields 0x05 vd 0 0 0 imm rfl,
    fun himm p hp hi => ?_, fun himm => raises_of_exec (if_pos himm), fun himm hi => ?_⟩
  · obtain ⟨t, ht, hv, hw⟩ :=
      next_of_complete_writeV (execSetb_of_some himm (resolveIndex_of_position hp hi))
    exact ⟨t, ht, hv ▸ setBit_len .., fun k => hv ▸ testBit_putBit _ _ _ k, hw⟩
  · exact raises_of_exec (execSetb_of_none himm ((resolveIndex_eq_none _ _).2 hi))

/-- SETB completes with OK only on an immediate 0 or 1 and an index that names a position. -/
theorem execSetb_ok {vd : Reg} {imm : BitVec 10} {s t : State} (h : exec (.setb vd imm) s = .next t)
    (hok : t.ecode = .ok) :
    imm.toNat ≤ 1 ∧ ∃ p, resolveIndex (s.readV vd).len (argS s) = some p ∧
      t = (s.writeV vd ((s.readV vd).setBit p (decide (imm.toNat = 1)))).completed := by
  by_cases himm : imm.toNat ≤ 1
  · cases hp : resolveIndex (s.readV vd).len (argS s) with
    | none =>
      obtain rfl := (raise_eq_next _ _ _).1 ((execSetb_of_none himm hp).symm.trans h)
      cases hok
    | some p =>
      exact ⟨himm, p, rfl, (complete_eq_next _ _).1 ((execSetb_of_some himm hp).symm.trans h)⟩
  · obtain rfl := (raise_eq_next _ _ _).1 ((if_pos (not_le.1 himm)).symm.trans h)
    cases hok

/-- Settles O22: the index names the same position in the written vector, and `bit_setBit` reads it. -/
theorem getbReadsBackSetb : Obligations.GetbReadsBackSetb := by
  intro s t u vd imm hset hok hget
  obtain ⟨himm, p, hp, rfl⟩ := execSetb_ok hset hok
  have hlt : p < (s.readV vd).len := ((resolveIndex_eq_some _ _ _).1 hp).1
  rw [execGetb_of_some (p := p) (by simpa using hp), complete_eq_next] at hget
  subst hget
  refine ⟨rfl, ?_⟩
  rw [toNat_result_writeResult _ (toNat_bool_lt _), readV_completed, readV_writeV_same,
    bit_setBit _ hlt hlt, if_pos rfl]
  interval_cases imm.toNat <;> rfl

/-! ## Storage words (R130, R131) -/

/-- A storage word has a bit (R5). -/
theorem w_pos_of_legal {c : Config} (h : c.Legal) : 0 < c.w := by
  obtain ⟨hw, -⟩ := h
  omega

/-- `ceil(len / W) <= k` exactly when storage word `k` holds no position (R11). -/
theorem nwords_le_iff {w : Nat} (hw : 0 < w) (v : Vec) (k : Nat) :
    v.nwords w ≤ k ↔ v.len ≤ k * w := by
  rw [← not_lt, lt_nwords hw, not_lt]

/-- Settles O19: `testBit_wordRead` for the bits. -/
theorem rdwReadsTheStorageWord : Obligations.RdwReadsTheStorageWord := by
  intro s va ⟨hc, _⟩
  have hrange := nwords_le_iff (w_pos_of_legal hc) (s.readV va) (argU s)
  refine ⟨encodedAs_of_fields 0x08 0 va 0 0 0 rfl, fun h => ?_,
    fun h => raises_of_exec (if_pos (hrange.2 h))⟩
  have hfit : (s.readV va).wordRead s.cfg.w (argU s) < 2 ^ 32 :=
    lt_of_lt_of_le (wordRead_lt ..) (Nat.pow_le_pow_right (by omega) (w_le_of_legal hc))
  obtain ⟨t, ht, hr, hw⟩ := next_of_complete_writeResult (i := .rdw va) hfit
    (if_neg (hrange.not.2 (not_le.2 h)))
  exact ⟨t, ht, fun j => by rw [← BitVec.testBit_toNat, hr, testBit_wordRead, argU], hw⟩

/-- Settles O20: `bit_wordWrite` for the bits, `wordWrite_wf` for the bound. -/
theorem wrwWritesTheStorageWord : Obligations.WrwWritesTheStorageWord := by
  intro s vd ⟨hc, hm, _⟩
  have hrange := nwords_le_iff (w_pos_of_legal hc) (s.readV vd) (argU s)
  refine ⟨encodedAs_of_fields 0x09 vd 0 0 0 0 rfl, fun h => ?_,
    fun h => raises_of_exec (if_pos (hrange.2 h))⟩
  obtain ⟨t, ht, hv, hw⟩ := next_of_complete_writeV (i := .wrw vd)
    (if_neg (hrange.not.2 (not_le.2 h)))
  have hlen : (t.readV vd).len = (s.readV vd).len := hv ▸ wordWrite_len ..
  have hwf : (t.readV vd).wf s.cfg := hv ▸ wordWrite_wf _ _ _ (readV_wf hm vd)
  refine ⟨t, ht, hlen, hlen ▸ hwf.2, fun q hq => ?_, hw⟩
  rw [hv, bit_wordWrite _ _ _ _ _ hq, BitVec.testBit_toNat, argU]

/-! ## Bytes (R132) -/

/-- Bit `7 - j` of byte `b` is the bit at position `8b + j`, for a byte inside the vector. -/
theorem testBit_byteRead_eq_bit {v : Vec} {b j : Nat} (hb : 8 * b + 8 ≤ v.len) (hj : j < 8) :
    (v.byteRead b).testBit (7 - j) = v.bit (8 * b + j) := by
  rw [testBit_byteRead, decide_eq_true (by omega), Bool.true_and, Vec.bit]
  congr 1
  omega

/-- Settles O21: `testBit_byteRead_eq_bit` for the bits; the checks in their order for the errors. -/
theorem rdbReadsTheByte : Obligations.RdbReadsTheByte := by
  intro s va
  refine ⟨encodedAs_of_fields 0x0A 0 va 0 0 0 rfl, fun hmod hb => ?_,
    fun hmod => raises_of_exec (if_pos hmod), fun hmod hb => ?_⟩
  · have hexec : exec (.rdb va) s = complete (s.writeResult ((s.readV va).byteRead (argU s))) :=
      (if_neg (not_not.2 hmod)).trans (if_neg (not_le.2 hb))
    obtain ⟨t, ht, hr, hw⟩ := next_of_complete_writeResult
      (lt_trans (byteRead_lt ..) (by decide)) hexec
    refine ⟨t, ht, hr, fun j hj => ?_, hw⟩
    rw [← BitVec.testBit_toNat, hr]
    exact testBit_byteRead_eq_bit (by simp only [argU]; omega) hj
  · exact raises_of_exec ((if_neg (not_not.2 hmod)).trans (if_pos hb))

end Sys2Proof.Machine
end

section
/-! PROOFS. Family 41_bitwise: what AND, OR, XOR, NOT and CMP write, and what left padding means position by
position. -/

namespace Sys2Proof.Machine

/-! ## AND, OR and XOR (R160 to R163) -/

/-- Settles O24: none of the three commands has an error. -/
theorem andOrXorCombineValues : Obligations.AndOrXorCombineValues := fun _ vd va vb =>
  ⟨encodedAs_of_fields 0x10 vd va vb 0 0 rfl, encodedAs_of_fields 0x11 vd va vb 0 0 rfl,
    encodedAs_of_fields 0x12 vd va vb 0 0 rfl, next_of_complete_writeV rfl,
    next_of_complete_writeV rfl, next_of_complete_writeV rfl⟩

/-- A vector padded on its left to `len` positions: position `p` of the longer vector is the bit of the
value at `len - 1 - p`, and 0 where the padding is (R160). -/
theorem bitAt_sub_padding {c : Config} {v : Vec} {len p : Nat} (hv : v.wf c) (hlen : v.len ≤ len)
    (hp : p < len) : v.bitAt ((p : Int) - (len - v.len)) = v.val.testBit (len - 1 - p) := by
  obtain ⟨-, hval⟩ := hv
  by_cases hpad : len - v.len ≤ p
  · have hpos : ((p : Int) - (len - v.len)).toNat = p - (len - v.len) := by omega
    have hindex : v.len - 1 - (p - (len - v.len)) = len - 1 - p := by omega
    rw [Vec.bitAt, decide_eq_true (by omega), decide_eq_true (by omega), hpos, Vec.bit, hindex]
    rfl
  · rw [Vec.bitAt, decide_eq_false (by omega), testBit_false_of_lt hval (by omega)]
    rfl

/-- An operation that works bit by bit combines the padded operands position by position. -/
theorem bit_binaryPadded {c : Config} {a b : Vec} {f : Bool → Bool → Bool} {p : Nat}
    (hf : f false false = false) (ha : a.wf c) (hb : b.wf c) (hp : p < max a.len b.len) :
    (binaryPadded (Nat.bitwise f) a b).bit p =
      f (a.bitAt ((p : Int) - ((max a.len b.len : Nat) - a.len)))
        (b.bitAt ((p : Int) - ((max a.len b.len : Nat) - b.len))) := by
  rw [bitAt_sub_padding ha (Nat.le_max_left ..) hp, bitAt_sub_padding hb (Nat.le_max_right ..) hp]
  exact Nat.testBit_bitwise hf ..

/-- Settles O25: each of the three operations is `Nat.bitwise f` for an `f` that gives 0 on two zeros, so
`binaryPadded_wf` bounds the result and `bit_binaryPadded` gives its bits. -/
theorem binaryOpsPadOnTheLeft : Obligations.BinaryOpsPadOnTheLeft := by
  intro s t i vd va vb g f ⟨_, hm, _⟩ hi h
  obtain ⟨hf, rfl, hexec⟩ : f false false = false ∧ g = Nat.bitwise f ∧
      exec i s = complete (s.writeV vd (binaryPadded g (s.readV va) (s.readV vb))) := by
    rcases hi with ⟨rfl, rfl, rfl⟩ | ⟨rfl, rfl, rfl⟩ | ⟨rfl, rfl, rfl⟩ <;> exact ⟨rfl, rfl, rfl⟩
  obtain ⟨_, ht, hv, ⟨hok, -⟩, hsame, -⟩ := next_of_complete_writeV hexec
  obtain rfl := Host.Outcome.next.inj (ht.symm.trans h)
  have ha := readV_wf hm va
  have hb := readV_wf hm vb
  obtain ⟨hlen, hval⟩ := binaryPadded_wf ha hb fun _ _ _ => Nat.bitwise_lt_two_pow (f := f)
  rw [hv]
  exact ⟨hok, fun r hr => hsame r (by simpa using hr), rfl, hlen, hval,
    fun p hp => bit_binaryPadded hf ha hb hp⟩

/-! ## NOT (R166) -/

/-- The vector NOT writes. -/
def Vec.complement (v : Vec) : Vec := ⟨v.len, mask v.len - v.val⟩

theorem exec_not (vd va : Reg) (s : State) :
    exec (.not vd va) s = complete (s.writeV vd (s.readV va).complement) := rfl

/-- Every position is inverted: below `2^len` subtracting from the mask borrows nothing. -/
theorem bit_complement {v : Vec} {p : Nat} (hv : v.val < 2 ^ v.len) (hp : p < v.len) :
    v.complement.bit p = !v.bit p := by
  have hmask : mask v.len - v.val = 2 ^ v.len - (v.val + 1) := by
    rw [mask, Nat.sub_sub, Nat.add_comm]
  have hindex : v.len - 1 - p < v.len := by omega
  simp only [Vec.bit, Vec.complement, hmask, Nat.testBit_two_pow_sub_succ hv, decide_eq_true hindex,
    Bool.true_and]

theorem complement_complement {v : Vec} (hv : v.val < 2 ^ v.len) : v.complement.complement = v := by
  have hval : mask v.len - (mask v.len - v.val) = v.val :=
    Nat.sub_sub_self (Nat.le_sub_one_of_lt hv)
  simp only [Vec.complement, hval]

/-- Settles O26: `bit_complement` for the bits, `complement_complement` for NOT twice. -/
theorem notInvertsEveryBit : Obligations.NotInvertsEveryBit := by
  intro s vd va ⟨_, hm, _⟩
  obtain ⟨-, hval⟩ := readV_wf hm va
  obtain ⟨t, ht, hv, hw⟩ := next_of_complete_writeV (exec_not vd va s)
  refine ⟨encodedAs_of_fields 0x13 vd va 0 0 0 rfl, t, ht, hv ▸ rfl, hv ▸ rfl,
    fun p hp => hv ▸ bit_complement hval hp, hw, fun w u hu => ?_⟩
  obtain rfl := (complete_eq_next _ _).1 ((exec_not w vd t).symm.trans hu)
  rw [readV_completed, readV_writeV_same, hv, complement_complement hval]

/-! ## CMP (R164, R167) -/

/-- Equality of vectors (R164). -/
theorem vec_eq_iff {a b : Vec} : a = b ↔ a.len = b.len ∧ a.val = b.val := by
  cases a
  cases b
  exact Vec.mk.injEq .. |>.to_iff

/-- A command that writes the comparison flags and completes. -/
theorem compareFlags_completed_wroteOnly (a b : Vec) (s : State) :
    WroteOnlyCompareFlags s (compareFlags a b s).completed :=
  ⟨⟨rfl, rfl, rfl, rfl⟩, fun _ _ => rfl, rfl, rfl, by simp [SameHostSide]⟩

/-- Settles O27: CMP has no error, and the model tests equality of vectors by length and value. -/
theorem cmpWritesEqLtGt : Obligations.CmpWritesEqLtGt := fun s va vb =>
  ⟨encodedAs_of_fields 0x14 0 va vb 0 0 rfl, _, rfl, decide_eq_true_iff.trans vec_eq_iff.symm,
    decide_eq_true_iff, decide_eq_true_iff, compareFlags_completed_wroteOnly _ _ s⟩

end Sys2Proof.Machine
end

section
/-! PROOFS. Family 42_shift: where each shift moves the bits, that it iterates its one-bit primitive, and the
shift laws. -/

namespace Sys2Proof.Machine

/-! ## A vector read at an integer position -/

/-- The bit at an integer position counted round the vector. -/
def Vec.rotAt (v : Vec) (p : Int) : Bool := v.bit (p % v.len).toNat

theorem rotAt_congr (v : Vec) {p q : Int} (h : p ≡ q [ZMOD v.len]) : v.rotAt p = v.rotAt q :=
  congrArg (fun k : Int => v.bit k.toNat) h

/-- The count that goes the rest of the way round (R186). -/
theorem sub_emod_modEq_neg (len n : Int) : len - n % len ≡ -n [ZMOD len] :=
  ((Int.mod_modEq n len).sub_left len).trans (sub_eq_add_neg len n ▸ Int.add_modEq_left)

theorem rotAt_periodic (v : Vec) : Function.Periodic v.rotAt v.len := fun _ =>
  rotAt_congr v Int.add_modEq_right

theorem rotAt_natCast (v : Vec) (p : Nat) : v.rotAt p = v.bit (p % v.len) := by
  rw [Vec.rotAt, ← Int.natCast_mod, Int.toNat_natCast]

theorem rotAt_of_lt {v : Vec} {p : Nat} (hp : p < v.len) : v.rotAt p = v.bit p := by
  rw [rotAt_natCast, Nat.mod_eq_of_lt hp]

theorem bitAt_natCast (v : Vec) (p : Nat) : v.bitAt p = (decide (p < v.len) && v.bit p) := by
  simp [Vec.bitAt]

theorem bitAt_of_lt {v : Vec} {p : Nat} (hp : p < v.len) : v.bitAt p = v.bit p := by
  rw [bitAt_natCast, decide_eq_true hp, Bool.true_and]

theorem bitAt_of_neg (v : Vec) {p : Int} (hp : p < 0) : v.bitAt p = false := by
  simp [Vec.bitAt, not_le.2 hp]

theorem bitAt_of_len_le {v : Vec} {p : Int} (hp : (v.len : Int) ≤ p) : v.bitAt p = false := by
  simp [Vec.bitAt, not_lt.2 hp]

/-! ## The one-bit primitives (R185) -/

/-- The bits `f` gives at the positions `0` to `len - 1`. -/
def bitsOf (len : Nat) (f : Int → Bool) : List Bool :=
  (List.range len).map fun p : Nat => f p

/-- The bit sequence of a vector is that of any function that agrees with its bits. -/
theorem bits_eq_bitsOf {v : Vec} {f : Int → Bool} (h : ∀ p : Nat, p < v.len → v.bit p = f p) :
    v.bits = bitsOf v.len f :=
  List.map_congr_left fun p hp => h p (List.mem_range.1 hp)

@[simp] theorem length_bitsOf (len : Nat) (f : Int → Bool) : (bitsOf len f).length = len := by
  simp [bitsOf]

theorem bitsOf_succ_first (len : Nat) (f : Int → Bool) :
    bitsOf (len + 1) f = f 0 :: bitsOf len fun k => f (k + 1) := by
  simp [bitsOf, List.range_succ_eq_map, Function.comp_def]

theorem bitsOf_succ_last (len : Nat) (f : Int → Bool) :
    bitsOf (len + 1) f = bitsOf len f ++ [f len] := by
  simp [bitsOf, List.range_succ]

theorem rotl1_bitsOf {len : Nat} (hlen : len ≠ 0) {f : Int → Bool} (hf : Function.Periodic f len) :
    rotl1 (bitsOf len f) = bitsOf len fun k => f (k + 1) := by
  obtain ⟨len, rfl⟩ := Nat.exists_eq_succ_of_ne_zero hlen
  have hwrap : f (len + 1) = f 0 := by simpa using hf 0
  rw [bitsOf_succ_first, bitsOf_succ_last, hwrap]
  rfl

theorem shl1_bitsOf {len : Nat} (hlen : len ≠ 0) {f : Int → Bool}
    (hf : ∀ k : Int, len ≤ k → f k = false) :
    shl1 (bitsOf len f) = bitsOf len fun k => f (k + 1) := by
  obtain ⟨len, rfl⟩ := Nat.exists_eq_succ_of_ne_zero hlen
  rw [bitsOf_succ_first, bitsOf_succ_last, hf (len + 1) (by simp)]
  rfl

theorem rotr1_bitsOf {len : Nat} (hlen : len ≠ 0) {f : Int → Bool} (hf : Function.Periodic f len) :
    rotr1 (bitsOf len f) = bitsOf len fun k => f (k + -1) := by
  obtain ⟨len, rfl⟩ := Nat.exists_eq_succ_of_ne_zero hlen
  have hwrap : f (0 + -1) = f len := by simpa using (hf (-1)).symm
  rw [bitsOf_succ_last, bitsOf_succ_first, hwrap]
  simp [rotr1]

theorem shr1_bitsOf {len : Nat} (hlen : len ≠ 0) {f : Int → Bool}
    (hf : ∀ k : Int, k < 0 → f k = false) :
    shr1 (bitsOf len f) = bitsOf len fun k => f (k + -1) := by
  obtain ⟨len, rfl⟩ := Nat.exists_eq_succ_of_ne_zero hlen
  rw [bitsOf_succ_last, bitsOf_succ_first, hf (0 + -1) (by simp)]
  simp [shr1]

/-- A primitive that moves the bits by `σ` moves them by `σ * n` in `n` applications. -/
theorem iterate_bitsOf {len : Nat} {prim : List Bool → List Bool} {σ : Int}
    {Q : (Int → Bool) → Prop} (hQ : ∀ f, Q f → Q fun k => f (k + σ))
    (hprim : ∀ f, Q f → prim (bitsOf len f) = bitsOf len fun k => f (k + σ)) :
    ∀ (n : Nat) (f : Int → Bool), Q f →
      prim^[n] (bitsOf len f) = bitsOf len fun k => f (k + σ * n)
  | 0, f, _ => by simp
  | n + 1, f, hf => by
    rw [Function.iterate_succ_apply, hprim f hf, iterate_bitsOf hQ hprim n _ (hQ f hf)]
    congr 1
    funext k
    congr 1
    push_cast
    ring

/-! ## The four shifts by a count that is not negative (R181 to R184) -/

/-- The shift `op` moves the bits by `σ` per count, with `read` for the bits beyond the ends, and so does
its one-bit primitive `prim`. -/
structure ShiftsBy (op : Nat → Nat → Nat → Nat) (prim : List Bool → List Bool)
    (read : Vec → Int → Bool) (σ : Int) : Prop where
  lt : ∀ (v : Vec) (n : Nat), v.val < 2 ^ v.len → op v.len v.val n < 2 ^ v.len
  bit : ∀ (v : Vec) (n p : Nat), v.val < 2 ^ v.len → p < v.len →
    (Vec.mk v.len (op v.len v.val n)).bit p = read v (p + σ * n)
  iterate : ∀ (v : Vec) (n : Nat), v.len ≠ 0 →
    prim^[n] v.bits = bitsOf v.len fun k => read v (k + σ * n)

theorem rotateLeft_shiftsBy : ShiftsBy rotateLeft rotl1 Vec.rotAt 1 where
  lt _ _ _ := rotateLeft_lt ..
  bit v n p hv hp := by
    rw [bit_rotateLeft n hv hp, one_mul, ← Nat.cast_add, rotAt_natCast]
  iterate v n hlen := by
    rw [bits_eq_bitsOf fun p hp => (rotAt_of_lt hp).symm]
    exact iterate_bitsOf (fun _ hf => hf.add_const 1) (fun _ hf => rotl1_bitsOf hlen hf) n _
      (rotAt_periodic v)

theorem rotateRight_shiftsBy : ShiftsBy rotateRight rotr1 Vec.rotAt (-1) where
  lt _ _ _ := rotateRight_lt ..
  bit v n p hv hp := by
    have hk : n % v.len < v.len := Nat.mod_lt n (by omega)
    have hmod : ((p + (v.len - n % v.len) : Nat) : Int) ≡ p + -1 * n [ZMOD v.len] := by
      push_cast [hk.le]
      rw [neg_one_mul]
      exact (sub_emod_modEq_neg v.len n).add_left p
    rw [bit_rotateRight n hv hp, ← rotAt_congr v hmod, rotAt_natCast]
  iterate v n hlen := by
    rw [bits_eq_bitsOf fun p hp => (rotAt_of_lt hp).symm]
    exact iterate_bitsOf (fun _ hf => hf.add_const (-1)) (fun _ hf => rotr1_bitsOf hlen hf) n _
      (rotAt_periodic v)

theorem shiftLeft_shiftsBy : ShiftsBy shiftLeft shl1 Vec.bitAt 1 where
  lt _ _ _ := shiftLeft_lt ..
  bit v n p _ hp := by
    rw [bit_shiftLeft n hp, one_mul, ← Nat.cast_add, bitAt_natCast]
  iterate v n hlen := by
    rw [bits_eq_bitsOf fun p hp => (bitAt_of_lt hp).symm]
    exact iterate_bitsOf (Q := fun f => ∀ k : Int, v.len ≤ k → f k = false)
      (fun _ hf k hk => hf _ (by omega)) (fun _ hf => shl1_bitsOf hlen hf) n _
      (fun _ hk => bitAt_of_len_le hk)

theorem shiftRight_shiftsBy : ShiftsBy shiftRight shr1 Vec.bitAt (-1) where
  lt _ n hv := shiftRight_lt n hv
  bit v n p hv hp := by
    rw [bit_shiftRight n hv hp]
    by_cases hn : n ≤ p
    · have hpos : (p : Int) + -1 * n = (p - n : Nat) := by omega
      rw [hpos, bitAt_of_lt (by omega), decide_eq_true hn, Bool.true_and]
    · rw [bitAt_of_neg v (by omega), decide_eq_false hn, Bool.false_and]
  iterate v n hlen := by
    rw [bits_eq_bitsOf fun p hp => (bitAt_of_lt hp).symm]
    exact iterate_bitsOf (Q := fun f => ∀ k : Int, k < 0 → f k = false)
      (fun _ hf k hk => hf _ (by omega)) (fun _ hf => shr1_bitsOf hlen hf) n _
      (fun _ hk => bitAt_of_neg v hk)

/-! ## A shift by a signed count (R180) -/

/-- The vector a shift command writes, for the signed count `n`. -/
def Vec.shift (fwd bwd : Nat → Nat → Nat → Nat) (v : Vec) (n : Int) : Vec :=
  ⟨v.len, (if n < 0 then bwd else fwd) v.len v.val n.natAbs⟩

section
variable {fwd bwd : Nat → Nat → Nat → Nat} {primF primB : List Bool → List Bool}
  {read : Vec → Int → Bool} {σ : Int}

/-- A negative count runs the mirror by its magnitude, which moves the bits by `σ * n` all the same. -/
theorem shift_by_sign (hf : ShiftsBy fwd primF read σ) (hb : ShiftsBy bwd primB read (-σ)) (n : Int) :
    ∃ op prim τ, ShiftsBy op prim read τ ∧ τ * n.natAbs = σ * n ∧
      (∀ v : Vec, v.shift fwd bwd n = ⟨v.len, op v.len v.val n.natAbs⟩) ∧
      (if 0 ≤ n then primF else primB) = prim := by
  by_cases hn : 0 ≤ n
  · exact ⟨fwd, primF, σ, hf, by rw [Int.natAbs_of_nonneg hn],
      fun v => by rw [Vec.shift, if_neg (not_lt.2 hn)], if_pos hn⟩
  · exact ⟨bwd, primB, -σ, hb, by rw [Int.ofNat_natAbs_of_nonpos (by omega), neg_mul_neg],
      fun v => by rw [Vec.shift, if_pos (not_le.1 hn)], if_neg hn⟩

theorem shift_lt (hf : ShiftsBy fwd primF read σ) (hb : ShiftsBy bwd primB read (-σ)) {v : Vec}
    (n : Int) (hv : v.val < 2 ^ v.len) : (v.shift fwd bwd n).val < 2 ^ v.len := by
  obtain ⟨op, prim, τ, hop, -, hshift, -⟩ := shift_by_sign hf hb n
  rw [hshift]
  exact hop.lt v _ hv

theorem bit_shift (hf : ShiftsBy fwd primF read σ) (hb : ShiftsBy bwd primB read (-σ)) {v : Vec}
    (n : Int) (hv : v.val < 2 ^ v.len) {p : Nat} (hp : p < v.len) :
    (v.shift fwd bwd n).bit p = read v (p + σ * n) := by
  obtain ⟨op, prim, τ, hop, hτ, hshift, -⟩ := shift_by_sign hf hb n
  rw [hshift, hop.bit v _ p hv hp, hτ]

theorem bits_shift (hf : ShiftsBy fwd primF read σ) (hb : ShiftsBy bwd primB read (-σ)) {v : Vec}
    (n : Int) (hv : v.val < 2 ^ v.len) (hlen : v.len ≠ 0) :
    (v.shift fwd bwd n).bits = (if 0 ≤ n then primF else primB)^[n.natAbs] v.bits := by
  obtain ⟨op, prim, τ, hop, hτ, -, hprim⟩ := shift_by_sign hf hb n
  rw [hprim, hop.iterate v _ hlen, hτ]
  exact bits_eq_bitsOf fun p hp => bit_shift hf hb n hv hp

end

/-! ## The shift commands (R180 to R184) -/

section
variable {i : Instr} {s : State} {vd : Reg} {fwd bwd : Nat → Nat → Nat → Nat}
  {primF primB : List Bool → List Bool} {read : Vec → Int → Bool} {σ : Int}

theorem shift_raises (hi : exec i s = shiftCommand fwd bwd vd s) (h : (s.readV vd).len = 0) :
    Raises .invalidOperation i s :=
  raises_of_exec (hi.trans (shiftCommand_empty h))

theorem exec_shift (hi : exec i s = shiftCommand fwd bwd vd s) (h : (s.readV vd).len ≠ 0) :
    exec i s = complete (s.writeV vd ((s.readV vd).shift fwd bwd (argS s))) :=
  hi.trans (shiftCommand_nonempty h)

/-- The effect of a shift command on its register, position by position. -/
theorem shift_movesBits (hi : exec i s = shiftCommand fwd bwd vd s) (hs : s.Inv)
    (hf : ShiftsBy fwd primF read σ) (hb : ShiftsBy bwd primB read (-σ)) :
    ((s.readV vd).len = 0 → Raises .invalidOperation i s) ∧
    ((s.readV vd).len ≠ 0 → ∃ t, exec i s = .next t ∧
      (t.readV vd).len = (s.readV vd).len ∧ (t.readV vd).val < 2 ^ (s.readV vd).len ∧
      (∀ p < (s.readV vd).len, (t.readV vd).bit p = read (s.readV vd) (p + σ * s.larg.toInt)) ∧
      WroteOnlyVectors [vd] s t) := by
  obtain ⟨-, hm, -⟩ := hs
  obtain ⟨-, hv⟩ := readV_wf hm vd
  refine ⟨shift_raises hi, fun hlen => ?_⟩
  obtain ⟨t, ht, hr, hw⟩ := next_of_complete_writeV (exec_shift hi hlen)
  exact ⟨t, ht, hr ▸ rfl, hr ▸ shift_lt hf hb _ hv, fun p hp => hr ▸ bit_shift hf hb _ hv hp, hw⟩

/-- The effect of a shift command on its register as iterations of the one-bit primitive. -/
theorem shift_iterates (hi : exec i s = shiftCommand fwd bwd vd s) (hs : s.Inv)
    (hf : ShiftsBy fwd primF read σ) (hb : ShiftsBy bwd primB read (-σ)) :
    ((s.readV vd).len = 0 → Raises .invalidOperation i s) ∧
    ((s.readV vd).len ≠ 0 → ∃ t, exec i s = .next t ∧ (t.readV vd).len = (s.readV vd).len ∧
      (t.readV vd).bits =
        (if 0 ≤ s.larg.toInt then primF else primB)^[s.larg.toInt.natAbs] (s.readV vd).bits ∧
      WroteOnlyVectors [vd] s t) := by
  obtain ⟨-, hm, -⟩ := hs
  obtain ⟨-, hv⟩ := readV_wf hm vd
  refine ⟨shift_raises hi, fun hlen => ?_⟩
  obtain ⟨t, ht, hr, hw⟩ := next_of_complete_writeV (exec_shift hi hlen)
  exact ⟨t, ht, hr ▸ rfl, hr ▸ bits_shift hf hb _ hv hlen, hw⟩

/-- What a shift of a register that is not empty leaves in it, and that it keeps the count. -/
theorem shift_next {t : State} (hi : exec i s = shiftCommand fwd bwd vd s)
    (hlen : (s.readV vd).len ≠ 0) (h : exec i s = .next t) :
    t.readV vd = (s.readV vd).shift fwd bwd (argS s) ∧ argS t = argS s := by
  obtain rfl := (complete_eq_next _ _).1 ((exec_shift hi hlen).symm.trans h)
  simp

end

/-- Settles O28: `shift_movesBits` for the rotation to the left. -/
theorem rotlMovesBitsLeft : Obligations.RotlMovesBitsLeft := by
  intro s vd hs
  have hmoves := shift_movesBits (i := .rotl vd) rfl hs rotateLeft_shiftsBy rotateRight_shiftsBy
  simp only [one_mul] at hmoves
  exact ⟨encodedAs_of_fields 0x18 vd 0 0 0 0 rfl, hmoves⟩

/-- Settles O29: `shift_movesBits` for the rotation to the right. -/
theorem rotrMovesBitsRight : Obligations.RotrMovesBitsRight := by
  intro s vd hs
  have hmoves := shift_movesBits (i := .rotr vd) rfl hs rotateRight_shiftsBy rotateLeft_shiftsBy
  simp only [neg_one_mul, ← sub_eq_add_neg] at hmoves
  exact ⟨encodedAs_of_fields 0x19 vd 0 0 0 0 rfl, hmoves⟩

/-- Settles O30: `shift_movesBits` for the shift to the left. -/
theorem shlMovesBitsLeft : Obligations.ShlMovesBitsLeft := by
  intro s vd hs
  have hmoves := shift_movesBits (i := .shl vd) rfl hs shiftLeft_shiftsBy shiftRight_shiftsBy
  simp only [one_mul] at hmoves
  exact ⟨encodedAs_of_fields 0x1A vd 0 0 0 0 rfl, hmoves⟩

/-- Settles O31: `shift_movesBits` for the shift to the right. -/
theorem shrMovesBitsRight : Obligations.ShrMovesBitsRight := by
  intro s vd hs
  have hmoves := shift_movesBits (i := .shr vd) rfl hs shiftRight_shiftsBy shiftLeft_shiftsBy
  simp only [neg_one_mul, ← sub_eq_add_neg] at hmoves
  exact ⟨encodedAs_of_fields 0x1B vd 0 0 0 0 rfl, hmoves⟩

/-- Settles O32: `shift_iterates` for each of the four commands. -/
theorem shiftsIterateTheOneBitPrimitive : Obligations.ShiftsIterateTheOneBitPrimitive := by
  intro s vd i fwd bwd hs hi
  rcases hi with ⟨rfl, rfl, rfl⟩ | ⟨rfl, rfl, rfl⟩ | ⟨rfl, rfl, rfl⟩ | ⟨rfl, rfl, rfl⟩
  · exact shift_iterates rfl hs rotateLeft_shiftsBy rotateRight_shiftsBy
  · exact shift_iterates rfl hs rotateRight_shiftsBy rotateLeft_shiftsBy
  · exact shift_iterates rfl hs shiftLeft_shiftsBy shiftRight_shiftsBy
  · exact shift_iterates rfl hs shiftRight_shiftsBy shiftLeft_shiftsBy

/-! ## The shift laws (R186) -/

/-- ROTL's result (R181), of which ROTR's is the one by the negative count. -/
def Vec.rotl (v : Vec) (n : Int) : Vec := v.shift rotateLeft rotateRight n

@[simp] theorem rotl_len (v : Vec) (n : Int) : (v.rotl n).len = v.len := rfl

theorem rotl_lt {v : Vec} (n : Int) (hv : v.val < 2 ^ v.len) : (v.rotl n).val < 2 ^ v.len :=
  shift_lt rotateLeft_shiftsBy rotateRight_shiftsBy n hv

theorem bit_rotl {v : Vec} (n : Int) (hv : v.val < 2 ^ v.len) {p : Nat} (hp : p < v.len) :
    (v.rotl n).bit p = v.rotAt (p + n) := by
  rw [Vec.rotl, bit_shift rotateLeft_shiftsBy rotateRight_shiftsBy n hv hp, one_mul]

theorem shift_right_eq_rotl {v : Vec} (n : Int) (hv : v.val < 2 ^ v.len) :
    v.shift rotateRight rotateLeft n = v.rotl (-n) := by
  refine vec_ext_bits rfl (shift_lt rotateRight_shiftsBy rotateLeft_shiftsBy n hv)
    (rotl_lt _ hv) fun p hp => ?_
  rw [bit_shift rotateRight_shiftsBy rotateLeft_shiftsBy n hv hp, bit_rotl _ hv hp, neg_one_mul]

/-- Rotation acts modulo the length. -/
theorem rotl_congr {v : Vec} (hv : v.val < 2 ^ v.len) {m n : Int} (h : m ≡ n [ZMOD v.len]) :
    v.rotl m = v.rotl n := by
  refine vec_ext_bits rfl (rotl_lt m hv) (rotl_lt n hv) fun p hp => ?_
  rw [bit_rotl m hv hp, bit_rotl n hv hp]
  exact rotAt_congr v (h.add_left p)

/-- Opposite rotations undo each other. -/
theorem rotl_rotl_neg {v : Vec} (hv : v.val < 2 ^ v.len) (n : Int) : (v.rotl n).rotl (-n) = v := by
  have hn := rotl_lt n hv
  refine vec_ext_bits rfl (rotl_lt (-n) hn) hv fun p hp => ?_
  have hlen : (0 : Int) < v.len := by omega
  have hq : ((p + -n) % v.len).toNat < v.len := by
    have hlt := Int.emod_lt_of_pos (p + -n) hlen
    omega
  have hback : ((((p : Int) + -n) % v.len).toNat : Int) + n ≡ p [ZMOD v.len] := by
    rw [Int.toNat_of_nonneg (Int.emod_nonneg _ hlen.ne')]
    simpa using (Int.mod_modEq (p + -n) v.len).add_right n
  rw [bit_rotl _ hn hp, Vec.rotAt, rotl_len, bit_rotl n hv hq, rotAt_congr v hback, rotAt_of_lt hp]

/-- Left by `k` and back right by `k` keeps the positions from `k` on. -/
theorem shiftRight_shiftLeft (len x k : Nat) :
    shiftRight len (shiftLeft len x k) k = x &&& (2 ^ (len - k) - 1) := by
  refine Nat.eq_of_testBit_eq fun j => ?_
  have hkeep : k + j < len ↔ j < len - k := by omega
  simp [shiftRight, shiftLeft_eq, testBit_mask, hkeep, Bool.and_comm]

theorem shr_shl {v : Vec} {n : Int} (hn : 0 ≤ n) :
    (v.shift shiftLeft shiftRight n).shift shiftRight shiftLeft n =
      ⟨v.len, v.val &&& (2 ^ (v.len - n.toNat) - 1)⟩ := by
  obtain ⟨k, rfl⟩ := Int.eq_ofNat_of_zero_le hn
  simp only [Vec.shift, if_neg (not_lt.2 hn), Int.natAbs_natCast, Int.toNat_natCast,
    shiftRight_shiftLeft]

/-- A shift by a count written for it, from 0 to the length, which fits LARG (R6, R9, R95). -/
theorem shift_next_ofInt {i : Instr} {s u : State} {vd : Reg} {fwd bwd : Nat → Nat → Nat → Nat}
    {n : Int} (hi : ∀ s, exec i s = shiftCommand fwd bwd vd s) (hs : s.Inv)
    (hlen : (s.readV vd).len ≠ 0) (h0 : 0 ≤ n) (hn : n ≤ (s.readV vd).len)
    (h : exec i { s with larg := BitVec.ofInt 32 n } = .next u) :
    u.readV vd = (s.readV vd).shift fwd bwd n := by
  obtain ⟨⟨-, ⟨-, hcap⟩, -⟩, hm, -⟩ := hs
  obtain ⟨hwf, -⟩ := readV_wf hm vd
  have harg : argS { s with larg := BitVec.ofInt 32 n } = n :=
    BitVec.toInt_ofInt_eq_self (by decide) (by omega) (by omega)
  obtain ⟨hr, -⟩ := shift_next (s := { s with larg := BitVec.ofInt 32 n }) (hi _) hlen h
  rwa [harg] at hr

/-- Settles O33: ROTR is ROTL by the negative count, so that the laws of the rotations are
`rotl_rotl_neg` and `rotl_congr`; the law of SHL and SHR is `shr_shl`. -/
theorem shiftLaws : Obligations.ShiftLaws := by
  intro s t vd hs hlen
  have ⟨_, hm, _⟩ := hs
  obtain ⟨-, hv⟩ := readV_wf hm vd
  have hpos : (0 : Int) < (s.readV vd).len := by omega
  have hmod0 := Int.emod_nonneg s.larg.toInt hpos.ne'
  have hmodlt := Int.emod_lt_of_pos s.larg.toInt hpos
  refine ⟨fun ht => ?_, fun ht u hu => ?_, fun ht h0 _ u hu => ?_⟩
  · obtain ⟨hr, ha⟩ := shift_next rfl hlen ht
    refine ⟨fun u hu => ?_, fun u hu => ?_, fun u hu => ?_⟩
    · obtain ⟨hru, -⟩ := shift_next rfl (hr ▸ hlen) hu
      rw [hru, hr, ha]
      exact (shift_right_eq_rotl _ (rotl_lt _ hv)).trans (rotl_rotl_neg hv _)
    · rw [shift_next_ofInt (fun _ => rfl) hs hlen hmod0 hmodlt.le hu, hr]
      exact rotl_congr hv (Int.mod_modEq _ _)
    · rw [shift_next_ofInt (fun _ => rfl) hs hlen (by omega) (by omega) hu, hr,
        shift_right_eq_rotl _ hv]
      refine rotl_congr hv ((sub_emod_modEq_neg _ _).neg.trans ?_)
      rw [neg_neg, argS]
  · obtain ⟨hr, ha⟩ := shift_next rfl hlen ht
    obtain ⟨hru, -⟩ := shift_next rfl (hr ▸ hlen) hu
    rw [hru, hr, ha, shift_right_eq_rotl _ hv, ← Vec.rotl]
    simpa only [neg_neg] using rotl_rotl_neg hv (-argS s)
  · obtain ⟨hr, ha⟩ := shift_next rfl hlen ht
    obtain ⟨hru, -⟩ := shift_next rfl (hr ▸ hlen) hu
    rw [hru, hr, ha]
    exact shr_shl h0

end Sys2Proof.Machine
end

section
/-! PROOFS. Family 43_gf: the checks of the modulus, what GFMUL, GFDIV and GFMULMOD write, and that GFINV
gives the inverse exactly when there is one. -/

namespace Sys2Proof.Machine

/-! ## The checks of R201 -/

theorem modulusError_of_long {c : Config} {m : Vec} {n : Nat} (h : n + 1 < m.len) :
    modulusError c m n = some .invalidArgument := if_pos h

theorem modulusError_of_zero {c : Config} {m : Vec} {n : Nat} (hlen : m.len ≤ n + 1)
    (h : m.val = 0) : modulusError c m n = some .invalidArgument :=
  (if_neg (not_lt.2 hlen)).trans (if_pos h)

theorem modulusError_of_large {c : Config} {m : Vec} {n : Nat} (hlen : m.len ≤ n + 1)
    (hm : m.val ≠ 0) (h : c.capBits < n) : modulusError c m n = some .capacity :=
  (if_neg (not_lt.2 hlen)).trans ((if_neg hm).trans (if_pos h))

theorem modulusError_of_passes {rm : Reg} {s : State} (h : ModulusPasses rm s) :
    modulusError s.cfg (s.readV rm) (argU s) = none := modulusError_eq_none.2 h

/-- The commands that check a modulus, and the register they take it from (R203, R205, R207). -/
def HasModulus (i : Instr) (rm : Reg) : Prop :=
  (∃ vd vc va, i = .gfdiv vd vc va rm) ∨ (∃ vd va vb, i = .gfmulmod vd va vb rm) ∨
    ∃ vd va, i = .gfinv vd va rm

theorem gfdiv_hasModulus (vd vc va rm : Reg) : HasModulus (.gfdiv vd vc va rm) rm :=
  .inl ⟨vd, vc, va, rfl⟩

theorem gfmulmod_hasModulus (vd va vb rm : Reg) : HasModulus (.gfmulmod vd va vb rm) rm :=
  .inr (.inl ⟨vd, va, vb, rfl⟩)

theorem gfinv_hasModulus (vd va rm : Reg) : HasModulus (.gfinv vd va rm) rm :=
  .inr (.inr ⟨vd, va, rfl⟩)

/-- A failed check is the command's whole effect. -/
theorem raises_of_modulusError {i : Instr} {rm : Reg} {s : State} {e : ErrorCode}
    (hi : HasModulus i rm) (h : modulusError s.cfg (s.readV rm) (argU s) = some e) :
    Raises e i s := by
  refine raises_of_exec ?_
  rcases hi with ⟨vd, vc, va, rfl⟩ | ⟨vd, va, vb, rfl⟩ | ⟨vd, va, rfl⟩
  · simp only [exec, execGfdiv, h]
  · simp only [exec, execGfmulmod, h]
  · simp only [exec, execGfinv, h]

theorem checksModulus {i : Instr} {rm : Reg} (hi : HasModulus i rm) (s : State) :
    ChecksModulus i rm s :=
  ⟨fun hlen => raises_of_modulusError hi (modulusError_of_long hlen),
    fun hlen h0 => raises_of_modulusError hi (modulusError_of_zero hlen h0),
    fun hlen h0 hn => raises_of_modulusError hi (modulusError_of_large hlen h0 hn)⟩

/-! ## Each command where its checks pass (R203, R205, R207) -/

section
variable {vd vc va vb : Reg} {s : State}

theorem exec_gfdiv_of_passes (h : ModulusPasses vb s) :
    exec (.gfdiv vd vc va vb) s =
      complete ((s.writeV vd ⟨(s.readV va).len, pdiv (s.readV va).val (s.readV vb).val⟩).writeV vc
        ⟨argU s, pmod (s.readV va).val (s.readV vb).val⟩) := by
  simp only [exec, execGfdiv, modulusError_of_passes h]

theorem exec_gfmulmod_of_passes (h : ModulusPasses vc s) :
    exec (.gfmulmod vd va vb vc) s = complete (s.writeV vd
      ⟨argU s, pmod (clmul (s.readV va).val (s.readV vb).val) (s.readV vc).val⟩) := by
  simp only [exec, execGfmulmod, modulusError_of_passes h]

theorem exec_gfinv_of_coprime (h : ModulusPasses vb s)
    (hg : pgcd (s.readV va).val (s.readV vb).val = 1) :
    exec (.gfinv vd va vb) s = complete (State.writeV { s with noinv := false } vd
      ⟨argU s, pmod (euclid (s.readV va).val (s.readV vb).val).2 (s.readV vb).val⟩) := by
  simp only [exec, execGfinv, modulusError_of_passes h, euclid_fst, if_neg (not_not.2 hg)]

theorem exec_gfinv_of_not_coprime (h : ModulusPasses vb s)
    (hg : pgcd (s.readV va).val (s.readV vb).val ≠ 1) :
    exec (.gfinv vd va vb) s = complete { s with noinv := true } := by
  simp only [exec, execGfinv, modulusError_of_passes h, euclid_fst, if_pos hg]

end

/-- A command whose checks pass has no other error. -/
theorem exec_ok_of_passes {i : Instr} {rm : Reg} {s : State} (hi : HasModulus i rm)
    (h : ModulusPasses rm s) : ∃ t, exec i s = .next t ∧ t.ecode = .ok := by
  rcases hi with ⟨vd, vc, va, rfl⟩ | ⟨vd, va, vb, rfl⟩ | ⟨vd, va, rfl⟩
  · exact ⟨_, exec_gfdiv_of_passes h, rfl⟩
  · exact ⟨_, exec_gfmulmod_of_passes h, rfl⟩
  · by_cases hg : pgcd (s.readV va).val (s.readV rm).val = 1
    · exact ⟨_, exec_gfinv_of_coprime h hg, rfl⟩
    · exact ⟨_, exec_gfinv_of_not_coprime h hg, rfl⟩

/-- Settles O36: the three commands run the same checks, and none has another. -/
theorem modulusChecksComeInOrder : Obligations.ModulusChecksComeInOrder := fun s _ _ hi =>
  ⟨checksModulus hi s, exec_ok_of_passes hi⟩

/-! ## GFMUL (R202) -/

/-- Bit `k` of the product is settled once the bits of `y` up to `k` are in. -/
theorem testBit_clmulBelow_of_lt (x y : Nat) {n k : Nat} (h : k < n) :
    (clmulBelow x y n).testBit k = (clmulBelow x y (k + 1)).testBit k := by
  induction n, h using Nat.le_induction with
  | base => rfl
  | succ n hn ih =>
    have hk : ¬ n ≤ k := by omega
    rw [clmulBelow, Nat.testBit_xor, ih]
    split <;> simp [Nat.testBit_shiftLeft, hk]

/-- Bit `k` of the product is the parity of the pairs of set bits whose positions add up to `k`. -/
theorem testBit_clmul (x y k : Nat) : (clmul x y).testBit k =
    decide (((List.range (k + 1)).countP fun j => y.testBit j && x.testBit (k - j)) % 2 = 1) := by
  have hy : y < 2 ^ max (deg y + 1) (k + 1) :=
    lt_of_lt_of_le (deg_lt y) (Nat.pow_le_pow_right (by omega) (Nat.le_max_left ..))
  rw [clmul_eq_below hy, testBit_clmulBelow_of_lt x y (Nat.le_max_right ..), testBit_clmulBelow]
  congr 3
  refine List.countP_congr fun j hj => ?_
  have hjk : j ≤ k := Nat.le_of_lt_succ (List.mem_range.1 hj)
  simp [hjk]

/-- Settles O37: `testBit_clmul` for the bits, `clmul_lt` for the bound, `deg_clmul` for the degree,
`clmul_comm` for the sources exchanged. -/
theorem gfmulIsTheCarryFreeProduct : Obligations.GfmulIsTheCarryFreeProduct := by
  intro s vd va vb ⟨_, hm, _⟩
  refine ⟨encodedAs_of_fields 0x20 vd va vb 0 0 rfl, fun h => ?_, fun h => raises_of_exec (if_pos h)⟩
  obtain ⟨t, ht, hv, hw⟩ := next_of_complete_writeV (i := .gfmul vd va vb) (if_neg (not_lt.2 h))
  obtain ⟨u, hu, hv', -⟩ := next_of_complete_writeV (i := .gfmul vd vb va)
    (if_neg (not_lt.2 (Nat.add_comm .. ▸ h)))
  obtain ⟨-, ha⟩ := readV_wf hm va
  obtain ⟨-, hb⟩ := readV_wf hm vb
  refine ⟨t, ht, hv ▸ rfl, hv ▸ clmul_lt ha hb, fun k => hv ▸ testBit_clmul _ _ k,
    fun ha0 hb0 => hv ▸ deg_clmul ha0 hb0, ⟨u, hu, ?_⟩, hw⟩
  rw [hv, hv', clmul_comm, Nat.add_comm]

/-! ## GFDIV and GFMULMOD (R203 to R205) -/

theorem pmod_reduced {m : Nat} (hm : m ≠ 0) (x : Nat) : Reduced (pmod x m) m := pmod_deg hm x

/-- The remainder fits the field size `n` of the checks (R204). -/
theorem pmod_lt_of_passes {rm : Reg} {s : State} (hs : s.Inv) (h : ModulusPasses rm s) (x : Nat) :
    pmod x (s.readV rm).val < 2 ^ argU s :=
  have ⟨_, hm, _⟩ := hs
  (pmod_wf (modulusError_of_passes h) (readV_wf hm rm) x).2

/-- A command that writes two vector registers and completes. -/
theorem writeV_writeV_completed_wroteOnly (s : State) (r q : Reg) (v u : Vec) :
    WroteOnlyVectors [r, q] s ((s.writeV r v).writeV q u).completed := by
  refine ⟨⟨rfl, rfl, rfl, rfl⟩, fun p hp => ?_, ⟨rfl, rfl, rfl⟩, rfl, rfl, by simp [SameHostSide]⟩
  obtain ⟨hr, hq⟩ : p ≠ r ∧ p ≠ q := by simpa using hp
  rw [readV_completed, readV_writeV_ne _ _ _ _ hq, readV_writeV_ne _ _ _ _ hr]

/-- Settles O38: the division identity is `clmul_pdiv_xor_pmod`; the remainder is written last. -/
theorem gfdivDividesWithRemainder : Obligations.GfdivDividesWithRemainder := by
  intro s vd vc va vb hs
  refine ⟨encodedAs_of_fields 0x21 vd va vb vc 0 rfl, checksModulus (gfdiv_hasModulus ..) s,
    fun h => ?_⟩
  have ⟨_, hm, _⟩ := hs
  have ⟨_, hm0, _⟩ := h
  obtain ⟨-, ha⟩ := readV_wf hm va
  refine ⟨_, _, _, exec_gfdiv_of_passes h, clmul_pdiv_xor_pmod hm0 _, pmod_reduced hm0 _,
    pdiv_lt hm0 ha, pmod_lt_of_passes hs h _, readV_writeV_same .., fun hne => ?_,
    writeV_writeV_completed_wroteOnly s vd vc _ _⟩
  rw [readV_completed, readV_writeV_ne _ _ _ _ hne, readV_writeV_same]

/-- Settles O39: the remainder of the product is written, and no check is made of the product's length. -/
theorem gfmulmodReducesTheProduct : Obligations.GfmulmodReducesTheProduct := by
  intro s vd va vb vc hs
  refine ⟨encodedAs_of_fields 0x22 vd va vb vc 0 rfl, checksModulus (gfmulmod_hasModulus ..) s,
    fun h => ?_⟩
  have ⟨_, hm0, _⟩ := h
  obtain ⟨t, ht, hv, hw⟩ := next_of_complete_writeV (exec_gfmulmod_of_passes h)
  exact ⟨t, _, _, ht, clmul_pdiv_xor_pmod hm0 _, pmod_reduced hm0 _, pmod_lt_of_passes hs h _, hv, hw⟩

/-! ## Inverses modulo `m` (R207 to R209) -/

theorem lt_two_pow_of_reduced {r m : Nat} (h : Reduced r m) : r < 2 ^ deg m := by
  rcases h with rfl | h
  · exact Nat.two_pow_pos _
  · exact lt_of_lt_of_le (deg_lt r) (Nat.pow_le_pow_right (by omega) h)

/-- A reduced value is its own remainder. -/
theorem pmod_of_reduced {r m : Nat} (hm : m ≠ 0) (h : Reduced r m) : pmod r m = r :=
  (eq_pmod hm (q := 0) (lt_two_pow_of_reduced h) (by simp)).symm

theorem pmod_one {m : Nat} (h : 1 ≤ deg m) : pmod 1 m = 1 := by
  have hm : m ≠ 0 := by
    rintro rfl
    exact absurd h (by decide)
  exact pmod_of_reduced hm (.inr h)

/-- `u` is an inverse of `a` modulo `m` (R207). -/
def IsInverse (a m u : Nat) : Prop := pmod (clmul a u) m = pmod 1 m

section
variable {a m : Nat} (hm : m ≠ 0)
include hm

/-- The remainder of an inverse is an inverse. -/
theorem isInverse_pmod {u : Nat} (h : IsInverse a m u) : IsInverse a m (pmod u m) :=
  (pmod_clmul_pmod hm a u).trans h

/-- A product by `a` and then by an inverse of `a` is the value itself, modulo `m`. -/
theorem pmod_clmul_clmul_of_isInverse {c : Nat} (hc : IsInverse a m c) (u : Nat) :
    pmod (clmul c (clmul a u)) m = pmod u m :=
  calc pmod (clmul c (clmul a u)) m
      = pmod (clmul u (clmul a c)) m := by
        rw [clmul_comm c, clmul_comm a u, clmul_assoc]
    _ = pmod (clmul u 1) m := by
        rw [← pmod_clmul_pmod hm u (clmul a c), hc, pmod_clmul_pmod hm]
    _ = pmod u m := by rw [clmul_one_right]

/-- Two inverses are congruent. -/
theorem pmod_eq_of_isInverse {c u : Nat} (hc : IsInverse a m c) (hu : IsInverse a m u) :
    pmod u m = pmod c m :=
  calc pmod u m
      = pmod (clmul c (clmul a u)) m := (pmod_clmul_clmul_of_isInverse hm hc u).symm
    _ = pmod (clmul c 1) m := by
        rw [← pmod_clmul_pmod hm c (clmul a u), hu, pmod_clmul_pmod hm]
    _ = pmod c m := by rw [clmul_one_right]

/-- The Bezout coefficient of `a` is an inverse where the gcd is 1 (R206). -/
theorem isInverse_euclid (hg : pgcd a m = 1) : IsInverse a m (euclid a m).2 := by
  obtain ⟨k, hk⟩ := euclid_bezout hm a
  rw [euclid_fst, hg, clmul_comm] at hk
  exact pmod_congr hm hk

/-- An inverse exists exactly when the gcd is 1: it writes 1 as a sum of multiples of `a` and `m`, which
the gcd divides (R208). -/
theorem pgcd_eq_one_iff : pgcd a m = 1 ↔ ∃ u, IsInverse a m u := by
  refine ⟨fun hg => ⟨_, isInverse_euclid hm hg⟩, fun ⟨u, hu⟩ => ?_⟩
  obtain ⟨k, hk⟩ := exists_of_pmod_eq hm hu
  obtain ⟨hga, hgm⟩ := pgcd_dvd a m
  have hone : 1 = clmul u a ^^^ clmul k m := by
    rw [← hk, clmul_comm, ← Nat.xor_assoc, Nat.xor_self, Nat.zero_xor]
  exact eq_one_of_polyDvd_one (hone ▸ polyDvd_xor (polyDvd_clmul u hga) (polyDvd_clmul k hgm))

end

/-! ## GFINV (R207 to R209) -/

/-- A command that wrote vectors only, from a state that differs in NOINV, wrote NOINV and vectors. -/
theorem wroteOnlyNoinvAnd_of_vectors {vs : List Reg} {s t : State} {b : Bool}
    (h : WroteOnlyVectors vs { s with noinv := b } t) : WroteOnlyNoinvAnd vs s t :=
  have ⟨hok, hvs, hflags, _, hresult, hhost⟩ := h
  ⟨hok, hvs, hflags, hresult, hhost⟩

/-- Settles O40: the remainder of the Bezout coefficient is an inverse, `pmod_eq_of_isInverse` that it is
the only reduced one. -/
theorem gfinvGivesTheInverseOrNoinv : Obligations.GfinvGivesTheInverseOrNoinv := by
  intro s vd va vb hs
  refine ⟨encodedAs_of_fields 0x23 vd va vb 0 0 rfl, checksModulus (gfinv_hasModulus ..) s,
    fun h hg => ?_, fun h hg => ?_⟩
  · exact ⟨_, exec_gfinv_of_not_coprime h hg, rfl,
      wroteOnlyNoinvAnd_of_vectors (completed_wroteNothing _)⟩
  · have ⟨_, hm0, _⟩ := h
    have hinv := isInverse_euclid hm0 hg
    refine ⟨_, _, exec_gfinv_of_coprime h hg, rfl, readV_writeV_same .., pmod_lt_of_passes hs h _,
      isInverse_pmod hm0 hinv, pmod_one, pmod_reduced hm0 _, fun u' hred hu' => ?_,
      wroteOnlyNoinvAnd_of_vectors (writeV_completed_wroteOnly _ vd _)⟩
    exact (pmod_of_reduced hm0 hred).symm.trans (pmod_eq_of_isInverse hm0 hinv hu')

/-- Settles O41: NOINV says that the gcd is not 1, and `pgcd_eq_one_iff` what that means. -/
theorem noinvExactlyWhenNoInverseExists : Obligations.NoinvExactlyWhenNoInverseExists := by
  intro s t vd va vb h ht
  have ⟨_, hm0, _⟩ := h
  obtain ⟨t', ht', hok⟩ := exec_ok_of_passes (gfinv_hasModulus vd va vb) h
  obtain rfl := Host.Outcome.next.inj (ht'.symm.trans ht)
  exact (execGfinv_noinv ht hok).trans (pgcd_eq_one_iff hm0).not

end Sys2Proof.Machine
end

section
/-! PROOFS. Family 60_exceptions: every command completes, an error commits nothing, a pending command
completes after the host accesses that are due, and what moves the interrupt output. -/

namespace Sys2Proof.Machine

/-! ## How a command ends (R240, R241) -/

/-- Settles O8: no command stops the machine, and `exec_ends` and `exec_err` say how each one ends. -/
theorem everyCommandCompletes : Obligations.EveryCommandCompletes := by
  intro i s
  obtain ⟨t, h⟩ := exec_eq_next i s
  obtain ⟨hbusy, hdone, hhost⟩ := exec_ends h
  exact ⟨t, h, hbusy, hdone, exec_err h, hhost⟩

/-- A command whose code is an error has raised it and done nothing else (R241). -/
theorem exec_raisedError {i : Instr} {s t : State} (h : exec i s = .next t) (hne : t.ecode ≠ .ok) :
    RaisedError t.ecode s t := by
  rcases exec_cases i s with ⟨e, -, he⟩ | ⟨m, r, q, l, g, n, he⟩
  all_goals obtain rfl := Host.Outcome.next.inj (he.symm.trans h)
  · exact raised_isRaisedError e s
  · exact absurd rfl hne

/-- A pending word whose code is an error has raised it and done nothing else, ILLEGAL where it does not
decode (R97, R98, R241). -/
theorem runCommand_raisedError {s t : State} (h : runCommand s = .next t) (hne : t.ecode ≠ .ok) :
    RaisedError t.ecode s t := by
  rcases runCommand_cases s with ⟨i, -, hx⟩ | ⟨-, -, hx⟩
  · exact exec_raisedError (hx.symm.trans h) hne
  · obtain rfl := Host.Outcome.next.inj (hx.symm.trans h)
    exact raised_isRaisedError .illegal s

/-- Settles O9: `exec_raisedError` for a command, `runCommand_raisedError` for the engine's turn. -/
theorem errorsWriteOnlyStatus : Obligations.ErrorsWriteOnlyStatus := by
  rintro s t (⟨i, h⟩ | ⟨hb, h⟩) hne
  · exact exec_raisedError h hne
  · exact runCommand_raisedError ((engineStep_busy hb).symm.trans h) hne

/-! ## A pending command completes (R240, R290, log 3) -/

/-- No register write changes the configuration, the level of `rst` or the events to come. -/
theorem writeRegister_keeps (off : Nat) (x : Word) (s : State) :
    (writeRegister off x s).cfg = s.cfg ∧ (writeRegister off x s).rst = s.rst ∧
      (writeRegister off x s).inputs = s.inputs := by
  rcases writeRegister_cases off x s with
    ⟨-, e⟩ | ⟨-, e⟩ | ⟨-, -, e⟩ | ⟨-, -, e⟩ | ⟨-, e⟩ | ⟨-, e⟩ | ⟨-, -, -, -, -, e⟩
  all_goals
    rw [e]
    exact ⟨rfl, rfl, rfl⟩

/-- No access, accepted or refused, changes the configuration, the level of `rst` or the events to come. -/
theorem busAccess_keeps (a : Access) (s : State) :
    (busAccess a s).1.cfg = s.cfg ∧ (busAccess a s).1.rst = s.rst ∧
      (busAccess a s).1.inputs = s.inputs := by
  by_cases ha : Accepted a s
  · rw [busAccess_of_accepted ha]
    cases a.kind with
    | read => exact ⟨rfl, rfl, rfl⟩
    | write x => exact writeRegister_keeps _ x s
  · rw [busAccess_of_not_accepted ha]
    exact ⟨rfl, rfl, rfl⟩

/-- The step of an accepted access takes the access off the list, and what decides whether the later ones
are accepted is as before (R65). -/
theorem step_of_accepted {s : State} {a : Access} {rest : List Event}
    (hi : s.inputs = .host a :: rest) (ha : Accepted a s) :
    ∃ t, step s = .next t ∧ t.cfg = s.cfg ∧ t.rst = s.rst ∧ t.inputs = rest := by
  have hstep : step s = hostStep a { s with inputs := rest } := by
    simp only [step, nextEvent, hi, perform]
  rcases hostStep_cases a { s with inputs := rest } with ⟨hna, -⟩ | ⟨-, hn⟩
  · exact absurd ha hna
  · exact ⟨_, hstep.trans hn, busAccess_keeps a { s with inputs := rest }⟩

/-- A host access leaves a pending command pending (R42). -/
theorem step_busy_of_host {s t : State} {a : Access} {rest : List Event} (h : step s = .next t)
    (hi : s.inputs = .host a :: rest) (hb : s.busy = true) : t.busy = true := by
  by_contra hb'
  rcases ((step_busy h).2 hb).1 (by simpa using hb') with he | ⟨_, hr⟩
  · simp [State.EngineNext, nextEvent, hi] at he
  · simp [hi] at hr

/-- The first step of a run. -/
theorem run_succ_of_step {s t : State} (h : step s = .next t) (n : Nat) :
    core.run (n + 1) s = core.run n t := by
  simp only [Host.Core.run, core, h]

/-- With no event left a pending command completes in the next step (log 3). -/
theorem step_completes_of_no_inputs {s : State} (hi : s.inputs = []) (hb : s.busy = true) :
    ∃ t, step s = .next t ∧ t.busy = false ∧ t.done = true := by
  have hstep : step s = engineStep s := by simp only [step, nextEvent, hi, perform]
  obtain ⟨t, h⟩ := engineStep_eq_next s
  obtain ⟨hbusy, hdone, -⟩ := runCommand_ends ((engineStep_busy hb).symm.trans h)
  exact ⟨t, hstep.trans h, hbusy, hdone⟩

/-- Settles O10, by induction on the events to come: each is an accepted access and leaves the command
pending, and with none left the engine completes it. -/
theorem pendingCommandCompletesAfterTheInputs :
    Obligations.PendingCommandCompletesAfterTheInputs := by
  intro s hb hacc
  induction hi : s.inputs generalizing s with
  | nil =>
    obtain ⟨t, h, hend⟩ := step_completes_of_no_inputs hi hb
    exact ⟨t, run_succ_of_step h 0, hend⟩
  | cons e rest ih =>
    rw [hi, List.forall_mem_cons] at hacc
    obtain ⟨⟨a, rfl, ha⟩, hrest⟩ := hacc
    obtain ⟨u, h, hcfg, hrst, hinputs⟩ := step_of_accepted hi ha
    have hacc' : ∀ e ∈ u.inputs, ∃ a, e = .host a ∧ Accepted a u := by
      simpa only [Accepted, hinputs, hcfg, hrst] using hrest
    obtain ⟨t, hrun, hend⟩ := ih u (step_busy_of_host h hi hb) hacc' hinputs
    exact ⟨t, (run_succ_of_step h _).trans hrun, hend⟩

/-! ## The interrupt output (R35, R252) -/

/-- CTRL.IE changes only at a CTRL write, which gives it bit 0 of the word, and at reset, which clears it
(R35, R280). -/
theorem step_ie {s t : State} (h : step s = .next t) :
    t.ie = s.ie ∨ (∃ x, HostWrites 0x08 x s ∧ t.ie = x.getLsbD 0) ∨ (ResetNext s ∧ t.ie = false) := by
  obtain ⟨v, ⟨-, rfl⟩ | ⟨x, hw, rfl⟩ | ⟨x, -, rfl⟩ | ⟨x, -, -, rfl⟩ | ⟨x, -, -, rfl⟩ |
    ⟨x, -, rfl⟩ | ⟨x, -, rfl⟩ | ⟨i, -, hx⟩ | ⟨-, -, -, rfl⟩ | ⟨hr, rfl⟩ | ⟨-, rfl⟩⟩ :=
    step_next_cases h
  -- a read, an ignored write or an idle turn; then the writes of CTRL, STATUS, CMD (two), ARG and DATA
  · exact .inl rfl
  · exact .inr (.inl ⟨x, hw, rfl⟩)
  · exact .inl rfl
  · exact .inl rfl
  · exact .inl rfl
  · exact .inl rfl
  · exact .inl rfl
  -- the end of a command, and of an illegal word; then the two changes of `rst`
  · obtain ⟨-, -, -, hie, -⟩ := exec_ends hx
    exact .inl hie
  · exact .inl rfl
  · exact .inr (.inr ⟨hr, rfl⟩)
  · exact .inl rfl

theorem irq_eq_true {s : State} : irq s = true ↔ s.ie = true ∧ s.done = true := by
  simp only [irq, Bool.and_eq_true]

theorem irq_eq_false {s : State} : irq s = false ↔ s.ie = false ∨ s.done = false := by
  simp only [irq, Bool.and_eq_false_iff]

/-- irq rises with DONE while IE = 1, or with IE while DONE = 1. -/
theorem step_irq_rises {s t : State} (h : step s = .next t) (hs : irq s = false)
    (ht : irq t = true) :
    (s.EngineNext ∧ s.busy = true ∧ s.ie = true) ∨
      (∃ x, HostWrites 0x08 x s ∧ x.getLsbD 0 = true ∧ s.done = true) := by
  obtain ⟨hie, hdone⟩ := irq_eq_true.1 ht
  obtain ⟨hrise, -⟩ := doneRisesAtCompletion s t h
  rcases step_ie h with hkeep | ⟨x, hw, hx⟩ | ⟨-, hx⟩
  · have hie0 : s.ie = true := hkeep.symm.trans hie
    have hdone0 : s.done = false := (irq_eq_false.1 hs).resolve_left (by simp [hie0])
    obtain ⟨he, hb⟩ := (hrise hdone0).1 hdone
    exact .inl ⟨he, hb, hie0⟩
  · refine .inr ⟨x, hw, hx.symm.trans hie, ?_⟩
    by_contra hdone0
    obtain ⟨he, -⟩ := (hrise (by simpa using hdone0)).1 hdone
    exact not_engineNext_of_hostWrites hw he
  · exact absurd (hx.symm.trans hie) Bool.false_ne_true

/-- irq falls with DONE or with IE. -/
theorem step_irq_falls {s t : State} (h : step s = .next t) (hs : irq s = true)
    (ht : irq t = false) :
    (∃ x, HostWrites 0x10 x s ∧ s.busy = false) ∨
      (∃ x, HostWrites 0x0C x s ∧ x.getLsbD 1 = true) ∨
      (∃ x, HostWrites 0x08 x s ∧ x.getLsbD 0 = false) ∨ ResetNext s := by
  obtain ⟨hie, hdone⟩ := irq_eq_true.1 hs
  rcases irq_eq_false.1 ht with hie' | hdone'
  · rcases step_ie h with hkeep | ⟨x, hw, hx⟩ | ⟨hr, -⟩
    · exact absurd (hie'.symm.trans (hkeep.trans hie)) Bool.false_ne_true
    · exact .inr (.inr (.inl ⟨x, hw, hx.symm.trans hie'⟩))
    · exact .inr (.inr (.inr hr))
  · obtain ⟨-, hfall⟩ := doneRisesAtCompletion s t h
    rcases (hfall hdone).1 hdone' with hacc | hclear | hr
    · exact .inl hacc
    · exact .inr (.inl hclear)
    · exact .inr (.inr (.inr hr))

/-- Settles O54: irq moves with DONE, whose rule is `doneRisesAtCompletion`, or with IE, whose rule is
`step_ie`. -/
theorem irqRisesAndFalls : Obligations.IrqRisesAndFalls :=
  fun _ _ h => ⟨step_irq_rises h, step_irq_falls h⟩

end Sys2Proof.Machine
end

section
/-! PROOFS. Family 70_reset_and_hazards: a command runs on the latched operands only, what the assertion
of `rst` leaves, and what can happen while it is asserted. -/

namespace Sys2Proof.Machine

/-! ## Later values of ARG and DATA (R47, R95, R286) -/

/-- The state as it is after the host has written `a` to ARG and `d` to DATA. -/
def State.withArgData (s : State) (a d : Word) : State := { s with arg := a, data := d }

@[simp] theorem withArgData_cfg (s : State) (a d : Word) : (s.withArgData a d).cfg = s.cfg := rfl
@[simp] theorem readV_withArgData (s : State) (a d : Word) (r : Reg) :
    (s.withArgData a d).readV r = s.readV r := rfl
@[simp] theorem argU_withArgData (s : State) (a d : Word) : argU (s.withArgData a d) = argU s := rfl
@[simp] theorem argS_withArgData (s : State) (a d : Word) : argS (s.withArgData a d) = argS s := rfl

/-- Two runs end in states that are equal but for ARG = `a` and DATA = `d` in the second. -/
def EndAlikeButArgData (a d : Word) (o o' : StepOutcome) : Prop :=
  ∃ t, o = .next t ∧ o' = .next (t.withArgData a d)

/-- A failed check commits nothing to ARG or DATA (R241). -/
theorem endAlikeButArgData_raise (s : State) (a d : Word) (e : ErrorCode) :
    EndAlikeButArgData a d (raise e s) (raise e (s.withArgData a d)) := ⟨_, rfl, rfl⟩

theorem endAlikeButArgData_complete (s : State) (a d : Word) :
    EndAlikeButArgData a d (complete s) (complete (s.withArgData a d)) := ⟨_, rfl, rfl⟩

/-- Both runs make the same check. -/
theorem endAlikeButArgData_ite {a d : Word} {p : Prop} [Decidable p] {x x' y y' : StepOutcome}
    (hx : EndAlikeButArgData a d x x') (hy : EndAlikeButArgData a d y y') :
    EndAlikeButArgData a d (if p then x else y) (if p then x' else y') := by
  split
  · exact hx
  · exact hy

/-- A command that raises when its one check fails, and completes otherwise. -/
theorem endAlikeButArgData_check (s t : State) (a d : Word) (p : Prop) [Decidable p] (e : ErrorCode) :
    EndAlikeButArgData a d (if p then raise e s else complete t)
      (if p then raise e (s.withArgData a d) else complete (t.withArgData a d)) :=
  endAlikeButArgData_ite (endAlikeButArgData_raise s a d e) (endAlikeButArgData_complete t a d)

/-- A command reads the latches, never ARG or DATA, so with other values in them it makes the same
checks and the same writes. -/
theorem exec_endAlikeButArgData (i : Instr) (s : State) (a d : Word) :
    EndAlikeButArgData a d (exec i s) (exec i (s.withArgData a d)) := by
  cases i with
  | nop | mov | getlen | and | or | xor | not | cmp => exact endAlikeButArgData_complete _ a d
  | alloc | fill | padl | rdw | wrw | rotl | rotr | shl | shr | gfmul =>
    exact endAlikeButArgData_check s _ a d _ _
  | rdb =>
    exact endAlikeButArgData_ite (endAlikeButArgData_raise s a d _)
      (endAlikeButArgData_check s _ a d _ _)
  | setb =>
    refine endAlikeButArgData_ite (endAlikeButArgData_raise s a d _) ?_
    simp only [readV_withArgData, argS_withArgData]
    split
    · exact endAlikeButArgData_raise s a d _
    · exact endAlikeButArgData_complete _ a d
  | getb | gfdiv | gfmulmod =>
    simp only [exec, execGetb, execGfdiv, execGfmulmod, withArgData_cfg, readV_withArgData,
      argU_withArgData, argS_withArgData]
    split
    · exact endAlikeButArgData_raise s a d _
    · exact endAlikeButArgData_complete _ a d
  | gfinv =>
    simp only [exec, execGfinv, withArgData_cfg, readV_withArgData, argU_withArgData]
    split
    · exact endAlikeButArgData_raise s a d _
    · exact endAlikeButArgData_ite (endAlikeButArgData_complete _ a d)
        (endAlikeButArgData_complete _ a d)

/-- Settles O55: an idle block accepts the command and so latches the operands, and
`exec_endAlikeButArgData` is the claim about later values. -/
theorem laterArgAndDataDoNotMatter : Obligations.LaterArgAndDataDoNotMatter := by
  refine ⟨fun s x hidle => ?_, fun i s t a d h => ?_⟩
  · rcases offerCommand_cases x s with ⟨hb, -⟩ | ⟨-, ho⟩
    · exact absurd (hidle.symm.trans hb) Bool.false_ne_true
    · simp only [ho, acceptCommand_larg, acceptCommand_ldata, and_self]
  · obtain ⟨u, hu, hu'⟩ := exec_endAlikeButArgData i s a d
    obtain rfl := Host.Outcome.next.inj (hu.symm.trans h)
    exact hu'

/-! ## The assertion of `rst` (R280) -/

/-- The step that asserts `rst` takes the event off the list and resets the block. -/
theorem step_of_resetNext {s : State} (h : ResetNext s) :
    step s = .next { assertReset s with inputs := s.inputs.tail } := by
  obtain ⟨rest, hi⟩ := h
  simp only [step, nextEvent, hi, perform]
  rfl

/-- What the assertion leaves, whatever the events still to come (log 5). -/
theorem assertReset_atResetValues (s : State) (l : List Event) :
    State.AtResetValues { assertReset s with inputs := l } := resetOf_atResetValues s.cfg

/-- Settles O57: the step is `assertReset`, which goes to the reset values on the same configuration. -/
theorem resetClearsEveryRegister : Obligations.ResetClearsEveryRegister := fun s h =>
  ⟨_, step_of_resetNext h, assertReset_atResetValues s s.inputs.tail, rfl⟩

/-! ## While `rst` is asserted (R281, logs 4 and 5) -/

theorem not_accepted_of_rst {s : State} (a : Access) (hr : s.rst = true) : ¬ Accepted a s :=
  fun ⟨hr', _⟩ => Bool.false_ne_true (hr'.symm.trans hr)

/-- Reset is the first cause the port looks at (log 4). -/
theorem hostStep_of_rst {s : State} (a : Access) (hr : s.rst = true) :
    hostStep a s = .fault (.busError .inReset) := by
  simp only [hostStep, accessProblem, hr, if_true]

/-- A step from the reset values with `rst` asserted leaves no register: an access is refused, the
engine is idle, a further assertion resets again, and the release changes `rst` alone. -/
theorem step_in_reset {s t : State} (hs : s.AtResetValues) (hr : s.rst = true)
    (h : step s = .next t) :
    t.AtResetValues ∧ (t.rst = false → ∃ rest, s.inputs = .releaseReset :: rest) := by
  have ⟨_, _, hidle, _⟩ := hs
  obtain ⟨u, hu, hx⟩ := step_cases s
  generalize u.inputs = l at hu hx
  subst hu
  rcases hx with ⟨a, -, hx⟩ | ⟨-, hx⟩ | ⟨-, hx⟩ | ⟨hi, hx⟩
  · rw [hostStep_of_rst (s := { s with inputs := l }) a hr] at hx
    cases hx.symm.trans h
  · rw [engineStep_idle (s := { s with inputs := l }) hidle] at hx
    obtain rfl := Host.Outcome.next.inj (hx.symm.trans h)
    exact ⟨hs, fun hf => absurd (hf.symm.trans hr) Bool.false_ne_true⟩
  · obtain rfl := Host.Outcome.next.inj (hx.symm.trans h)
    exact ⟨assertReset_atResetValues s l, fun hf => absurd hf.symm Bool.false_ne_true⟩
  · obtain rfl := Host.Outcome.next.inj (hx.symm.trans h)
    exact ⟨hs, fun _ => ⟨l, hi⟩⟩

/-- Settles O58: `step_of_resetNext` for the assertion; while it lasts, `hostStep_of_rst` for the accesses
and `step_in_reset` for the steps that answer. -/
theorem resetDiscardsThePendingCommand : Obligations.ResetDiscardsThePendingCommand := by
  refine ⟨fun s t hr h => ?_, fun s hs hr => ⟨fun a rest hi => ⟨?_, ?_⟩, fun t => step_in_reset hs hr⟩⟩
  · obtain rfl := Host.Outcome.next.inj ((step_of_resetNext hr).symm.trans h)
    exact ⟨assertReset_atResetValues s s.inputs.tail, rfl⟩
  · exact busAccess_of_not_accepted (not_accepted_of_rst a hr)
  · simp only [step, nextEvent, hi, perform]
    exact hostStep_of_rst a hr

/-! ## The invariant in the state after reset (R9, R280) -/

theorem resetOf_inv {c : Config} (hc : c.Legal) : (State.resetOf c).Inv :=
  ⟨hc, resetOf_vectors_wf c, ⟨rfl, rfl, rfl⟩, rfl, heldInReset_of_released rfl⟩

/-- The default parameters are legal (R5, R6, R7). -/
theorem standard_legal : Config.standard.Legal := by decide

/-- Settles O59: `resetOf_inv`, and the default configuration is one of the legal ones. -/
theorem invariantHoldsAtReset : Obligations.InvariantHoldsAtReset :=
  ⟨fun _ => resetOf_inv, resetOf_inv standard_legal⟩

end Sys2Proof.Machine
end
